-- ==== Sys2Proof/Word.lean ====
section
/-! DEFINITION. The machine's words: bytes (code bytes and data cells) and operand-stack entries. -/

namespace Sys2Proof

/-- A byte of the program image, and a cell of the data memory: an unsigned value 0..255
(spec/10_state.md R24, R25). -/
abbrev Byte := BitVec 8

/-- An entry of the operand stack: a signed integer in -32768..32767, held as a 16-bit
two's-complement cell (spec/10_state.md R14). Its value as the signed integer is `BitVec.toInt`. -/
abbrev Entry := BitVec 16

end Sys2Proof
end

