-- ==== Sys2Proof/Syntax.lean ====
section
/-! DEFINITION. The instructions: one constructor per row of spec/opcode_table.json, its four instructions and its
four illegal classes, and the opcode class that selects among them. -/

namespace Sys2Proof

/-- An instruction, with its operand as the decoder gives it (spec/30_encoding.md R47, R52 to R54): the offset of
STORE_MEM is a signed integer, the constant and the address are unsigned, ROL has none. The table's four ILLEGAL rows
select no instruction (R63); they stand here because the table lists them, and carry the low five bits of
the offending byte, which the fault report shows (spec/60_exceptions.md R102; log entry 5). -/
inductive Instr where
  /-- Class 1, format S13 (R50): pop `v`, store its low byte at `v + offset`. -/
  | storeMem (offset : Int)
  /-- Class 2, format U10 (R49): push the constant. -/
  | loadConst (constant : Nat)
  /-- Class 3, format U24 (R51): push the cell at the address. -/
  | loadMem (address : Nat)
  /-- Class 4, format N0 (R48): rotate the top entry left. -/
  | rol
  /-- A first byte of class 0 (R63). -/
  | illegalA0 (low : BitVec 5)
  /-- A first byte of class 5 (R63). -/
  | illegalA5 (low : BitVec 5)
  /-- A first byte of class 6 (R63). -/
  | illegalA6 (low : BitVec 5)
  /-- A first byte of class 7 (R63). -/
  | illegalA7 (low : BitVec 5)
deriving DecidableEq, Repr

/-- The eight values of the 3-bit opcode class `A` (spec/30_encoding.md R46, R47, R63). -/
inductive OpClass where
  | illegal0
  | storeMem
  | loadConst
  | loadMem
  | rol
  | illegal5
  | illegal6
  | illegal7
deriving DecidableEq, Repr

end Sys2Proof
end

