-- ==== Sys2Proof/WellFormed.lean ====
section
/-! DEFINITION. Which instructions have an encoding: the operand ranges of the class table. -/

namespace Sys2Proof

/-- The operand lies in the range of spec/30_encoding.md R47: -4096..4095, 0..1023, 0..16777215. An operand outside
it has no encoding (R60), and the assembler refuses it (R68). Every byte of an illegal class is itself. -/
def Instr.wellFormed : Instr → Bool
  | .storeMem offset => decide (-4096 ≤ offset) && decide (offset ≤ 4095)
  | .loadConst constant => decide (constant < 1024)
  | .loadMem address => decide (address < 16777216)
  | .rol => true
  | .illegalA0 _ => true
  | .illegalA5 _ => true
  | .illegalA6 _ => true
  | .illegalA7 _ => true

end Sys2Proof
end

