-- ==== Sys2Proof/Decode.lean ====
section
/-! DEFINITION. The decoder, total on any bytes (spec/30_encoding.md R46 to R64), and the encoder (R62). -/

namespace Sys2Proof

/-! ## The opcode class (R46, R47, R63) -/

/-- `A = CODE[c][7:5]`, the three most significant bits of the first byte (spec/30_encoding.md R46). -/
def classBits (firstByte : Byte) : BitVec 3 := firstByte.extractLsb' 5 3

/-- The five least significant bits of the first byte. -/
def lowBits (firstByte : Byte) : BitVec 5 := firstByte.extractLsb' 0 5

/-- The class table (spec/30_encoding.md R47) and the illegal classes (R63). -/
def OpClass.ofBits (a : BitVec 3) : OpClass :=
  match a.toNat with
  | 0 => .illegal0
  | 1 => .storeMem
  | 2 => .loadConst
  | 3 => .loadMem
  | 4 => .rol
  | 5 => .illegal5
  | 6 => .illegal6
  | _ => .illegal7

/-- The 3-bit code of a class (spec/30_encoding.md R47). -/
def OpClass.bits : OpClass → BitVec 3
  | .illegal0 => 0
  | .storeMem => 1
  | .loadConst => 2
  | .loadMem => 3
  | .rol => 4
  | .illegal5 => 5
  | .illegal6 => 6
  | .illegal7 => 7

/-- The encoded size in bytes; an unknown class has none (spec/30_encoding.md R47, R63). -/
def OpClass.size : OpClass → Option Nat
  | .storeMem => some 2
  | .loadConst => some 2
  | .loadMem => some 4
  | .rol => some 1
  | .illegal0 => none
  | .illegal5 => none
  | .illegal6 => none
  | .illegal7 => none

/-- The class of an instruction. -/
def Instr.opClass : Instr → OpClass
  | .storeMem _ => .storeMem
  | .loadConst _ => .loadConst
  | .loadMem _ => .loadMem
  | .rol => .rol
  | .illegalA0 _ => .illegal0
  | .illegalA5 _ => .illegal5
  | .illegalA6 _ => .illegal6
  | .illegalA7 _ => .illegal7

/-- The encoded size of an instruction: 2, 2, 4, 1; none for a byte of an illegal class (spec/30_encoding.md R47). -/
def Instr.size (i : Instr) : Option Nat := i.opClass.size

/-! ## The decoder (R55) -/

/-- What the decoder answers (spec/30_encoding.md R55, R56). An unknown class is answered as the table's ILLEGAL row,
whose meaning raises UnknownOpcodeError (R63). -/
inductive Decoded where
  /-- No byte is left: "decoder returns no instruction (normal halt)" (R58). -/
  | endOfImage
  /-- An instruction, or a byte of an illegal class. -/
  | instr (i : Instr)
  /-- TruncatedInstructionError: the class, the size it needs, the bytes that remain (R59). -/
  | truncated (a : BitVec 3) (size remaining : Nat)
deriving DecidableEq, Repr

/-- `B = W[12:3]` of the two-byte word of LOAD_CONST (spec/30_encoding.md R49, R52). -/
def operandU10 (w : BitVec 16) : Nat := (w.extractLsb' 3 10).toNat

/-- `B = sext_13(W[12:0])` of the two-byte word of STORE_MEM (spec/30_encoding.md R50, R53). -/
def operandS13 (w : BitVec 16) : Int := (w.extractLsb' 0 13).toInt

/-- `B = W[28:5]` of the four-byte word of LOAD_MEM (spec/30_encoding.md R51, R54). -/
def operandU24 (w : BitVec 32) : Nat := (w.extractLsb' 5 24).toNat

/-- STORE_MEM from its first byte and what follows it (R50, R53, R59). -/
def decodeStoreMem (b0 : Byte) : List Byte → Decoded
  | b1 :: _ => .instr (.storeMem (operandS13 (b0 ++ b1)))
  | [] => .truncated 1 2 1

/-- LOAD_CONST from its first byte and what follows it (R49, R52, R59). -/
def decodeLoadConst (b0 : Byte) : List Byte → Decoded
  | b1 :: _ => .instr (.loadConst (operandU10 (b0 ++ b1)))
  | [] => .truncated 2 2 1

/-- LOAD_MEM from its first byte and what follows it (R51, R54, R59). -/
def decodeLoadMem (b0 : Byte) : List Byte → Decoded
  | b1 :: b2 :: b3 :: _ => .instr (.loadMem (operandU24 (b0 ++ b1 ++ b2 ++ b3)))
  | [_, _] => .truncated 3 4 3
  | [_] => .truncated 3 4 2
  | [] => .truncated 3 4 1

/-- The decoder on the bytes from the cursor to the end of the image (spec/30_encoding.md R55). The word `W` is the
bytes with the one at the lowest offset most significant (R7, R35). -/
def decode : List Byte → Decoded
  | [] => .endOfImage
  | b0 :: rest =>
    match OpClass.ofBits (classBits b0) with
    | .storeMem => decodeStoreMem b0 rest
    | .loadConst => decodeLoadConst b0 rest
    | .loadMem => decodeLoadMem b0 rest
    | .rol => .instr .rol
    | .illegal0 => .instr (.illegalA0 (lowBits b0))
    | .illegal5 => .instr (.illegalA5 (lowBits b0))
    | .illegal6 => .instr (.illegalA6 (lowBits b0))
    | .illegal7 => .instr (.illegalA7 (lowBits b0))

/-- `Decode(c)` on an image (spec/30_encoding.md R55): the decoder sees the bytes from `c` on. A cursor at the end or
beyond it sees none (R58). -/
def decodeAt (code : List Byte) (c : Nat) : Decoded := decode (code.drop c)

/-! ## The decoder as a block (R56)

The inputs are the cursor and the bytes from it on (`remaining` is their number); `decode` is the result, and the other
outputs are read off it. -/

/-- The operand field `B`: signed, unsigned, or absent (spec/30_encoding.md R54, R56). -/
def Instr.operand : Instr → Option Int
  | .storeMem offset => some offset
  | .loadConst constant => some constant
  | .loadMem address => some address
  | .rol => none
  | .illegalA0 _ => none
  | .illegalA5 _ => none
  | .illegalA6 _ => none
  | .illegalA7 _ => none

/-- Output `A`: valid for an instruction and for both faults (spec/30_encoding.md R56). -/
def Decoded.classField : Decoded → Option (BitVec 3)
  | .endOfImage => none
  | .instr i => some i.opClass.bits
  | .truncated a _ _ => some a

/-- Output `size`: valid for an instruction and for a truncation (spec/30_encoding.md R56). -/
def Decoded.encodedSize : Decoded → Option Nat
  | .endOfImage => none
  | .instr i => i.size
  | .truncated _ size _ => some size

/-- Output `next_cursor`, `c + size`: valid for an instruction, not for a byte of an illegal class
(spec/30_encoding.md R55, R56). -/
def Decoded.nextCursor (c : Nat) : Decoded → Option Nat
  | .endOfImage => none
  | .instr i => i.size.map (fun n => c + n)
  | .truncated _ _ _ => none

/-! ## The encoder (R62) -/

/-- The two bytes of a 16-bit word, most significant first. -/
def bytesOfWord16 (w : BitVec 16) : List Byte := [w.extractLsb' 8 8, w.extractLsb' 0 8]

/-- The four bytes of a 32-bit word, most significant first. -/
def bytesOfWord32 (w : BitVec 32) : List Byte :=
  [w.extractLsb' 24 8, w.extractLsb' 16 8, w.extractLsb' 8 8, w.extractLsb' 0 8]

/-- The word of STORE_MEM: class 1, the 13-bit offset (spec/30_encoding.md R50). -/
def wordS13 (u : BitVec 13) : BitVec 16 := 1#3 ++ u

/-- The word of LOAD_CONST: class 2, the 10-bit constant, three pad bits 0 (spec/30_encoding.md R49). -/
def wordU10 (b : BitVec 10) : BitVec 16 := 2#3 ++ b ++ 0#3

/-- The word of LOAD_MEM: class 3, the 24-bit address, five pad bits 0 (spec/30_encoding.md R51). -/
def wordU24 (b : BitVec 24) : BitVec 32 := 3#3 ++ b ++ 0#5

/-- The one byte of class `a` with the low bits given. -/
def classByte (a : BitVec 3) (low : BitVec 5) : Byte := a ++ low

/-- The canonical encoding `Encode(A, B)`: class, operand bits, pad bits 0 (spec/30_encoding.md R48 to R51, R62). -/
def encode : Instr → List Byte
  | .storeMem offset => bytesOfWord16 (wordS13 (BitVec.ofInt 13 offset))
  | .loadConst constant => bytesOfWord16 (wordU10 (BitVec.ofNat 10 constant))
  | .loadMem address => bytesOfWord32 (wordU24 (BitVec.ofNat 24 address))
  | .rol => [classByte 4 0]
  | .illegalA0 low => [classByte 0 low]
  | .illegalA5 low => [classByte 5 low]
  | .illegalA6 low => [classByte 6 low]
  | .illegalA7 low => [classByte 7 low]

/-! ## The opcode table's words -/

/-- The `n` low bytes of a number, most significant first. -/
def bytesOfNat : Nat → Nat → List Byte
  | 0, _ => []
  | n + 1, w => BitVec.ofNat 8 (w >>> (8 * n)) :: bytesOfNat n w

/-- The bytes of a table word of `nbits` bits, filled up with zero bytes to the longest instruction, 4 bytes. The
table's word is `W`: the byte at the lowest offset is its most significant (spec/30_encoding.md section 8; log entry
18). -/
def tableBytes (nbits w : Nat) : List Byte :=
  bytesOfNat (nbits / 8) w ++ List.replicate (4 - nbits / 8) 0

/-- The instruction the decoder reads from a table word, or none where it refuses. -/
def decodeTableWord (nbits w : Nat) : Option Instr :=
  match decode (tableBytes nbits w) with
  | .instr i => some i
  | .endOfImage => none
  | .truncated _ _ _ => none

end Sys2Proof
end

