-- ==== Sys2Proof/Config.lean ====
section
/-! DEFINITION. The machine's parameters that a run reads (spec/00_scope.md R5). They are plain data, carried by
State unchanged, so that every statement holds for every value of them (log entry 1). The initial data image INIT_MEM
is the argument `init` of State.fresh. There is no free value: nothing in this machine draws one. -/

namespace Sys2Proof

/-- The parameters MEM_SIZE and STACK_DEPTH (spec/00_scope.md R5). -/
structure Config where
  /-- `MEM_SIZE`: the number of cells of `data_memory`. -/
  memSize : Nat
  /-- `STACK_DEPTH`: `none` for the unbounded stack of the source, `some d` for a stack of `d` entries. -/
  stackDepth : Option Nat
deriving DecidableEq, Repr

/-- The defaults of spec/00_scope.md R5: 65536 cells, an unbounded stack. -/
def Config.default : Config := { memSize := 65536, stackDepth := none }

/-- The constraints of spec/00_scope.md R5: 1 <= MEM_SIZE <= 16777216, and a finite STACK_DEPTH is at least 1. -/
def Config.wellFormed (c : Config) : Bool :=
  decide (1 ≤ c.memSize) && decide (c.memSize ≤ 16777216) &&
    match c.stackDepth with
    | none => true
    | some d => decide (1 ≤ d)

end Sys2Proof
end

