-- ==== Sys2Proof/Machine/Memory.lean ====
section
/-! DEFINITION. The data memory as plain data: a list of (address, byte) pairs in one canonical form. -/

namespace Sys2Proof.Machine

/-- `data_memory` (spec/10_state.md R24): addresses strictly rising, no entry equal to what an unlisted cell reads as. -/
abbrev Memory := List Host.Cell

/-- What a cell that the list does not name holds: 0, "zero-initialized" (spec/10_state.md R27, log entry 2). Cells
preset by INIT_MEM to another value are listed from reset on. -/
def Memory.unlisted : Byte := 0

/-- The cell at an address (spec/20_memory.md R31). -/
def Memory.read : Memory → Nat → Byte
  | [], _ => Memory.unlisted
  | (b, w) :: m, a => if b = a then w else Memory.read m a

/-- Put a cell in front, unless it holds what an unlisted cell reads as. -/
def Memory.consCell (a : Nat) (v : Byte) (m : Memory) : Memory :=
  if v = Memory.unlisted then m else (a, v) :: m

/-- Set the cell at an address and change no other (spec/20_memory.md R32), keeping the canonical form. -/
def Memory.write : Memory → Nat → Byte → Memory
  | [], a, v => Memory.consCell a v []
  | (b, w) :: m, a, v =>
    if a < b then Memory.consCell a v ((b, w) :: m)
    else if a = b then Memory.consCell a v m
    else (b, w) :: Memory.write m a v

/-- The canonical form: addresses strictly rising, no listed cell equal to an unlisted one. -/
abbrev Memory.wf (m : Memory) : Prop :=
  m.Pairwise (fun c d => c.1 < d.1) ∧ ∀ c ∈ m, c.2 ≠ Memory.unlisted

/-- Every listed cell lies in the memory extent 0..size-1 (spec/10_state.md R24). -/
abbrev Memory.within (m : Memory) (size : Nat) : Prop := ∀ c ∈ m, c.1 < size

end Sys2Proof.Machine
end

