-- ==== Sys2Proof/Machine/State.lean ====
section
/-! DEFINITION. The architectural state (spec/10_state.md R13), the faults of the machine and the fault record, the
reasons a step of the model can stop, and the state after reset (R27). -/

namespace Sys2Proof.Machine

/-- The run's situation (spec/10_state.md R21, spec/40_fetch_decode_execute.md R71). -/
inductive Status where
  /-- RUNNING -/
  | running
  /-- HALTED_OK: no instruction was left. -/
  | haltedOk
  /-- HALTED_ERR: a fault was raised. -/
  | haltedErr
deriving DecidableEq, Repr

/-- What is passed to `raise`: the kind of the fault and its `info` in one (spec/60_exceptions.md R94, R99, R102). -/
inductive Cause where
  /-- TruncatedInstructionError (R95): the class, the size it needs, the bytes remaining. -/
  | truncatedInstruction (a : BitVec 3) (size remaining : Nat)
  /-- UnknownOpcodeError (R96): the class and the offending first byte. -/
  | unknownOpcode (a : BitVec 3) (firstByte : Byte)
  /-- StackUnderflowError (R97): the entries needed and the entries present. -/
  | stackUnderflow (needed present : Nat)
  /-- OutOfBoundsError (R98): the offending address, a mathematical integer. -/
  | outOfBounds (address : Int)
  /-- StackOverflow (R99): only with a finite STACK_DEPTH. -/
  | stackOverflow
deriving DecidableEq, Repr

/-- The names of the faults (spec/60_exceptions.md R94, R99). -/
inductive FaultKind where
  | truncatedInstructionError
  | unknownOpcodeError
  | stackUnderflowError
  | outOfBoundsError
  | stackOverflow
deriving DecidableEq, Repr

/-- The fault record (spec/10_state.md R23): kind and info (both in `cause`), index and pc. -/
structure FaultRecord where
  cause : Cause
  /-- The value of `icount` when the fault was raised. -/
  index : Nat
  /-- The value of `pc` when the fault was raised. -/
  pc : Nat
deriving DecidableEq, Repr

/-- The complete architectural state (spec/10_state.md R13), with the parameters a step reads. -/
structure State where
  /-- MEM_SIZE and STACK_DEPTH (spec/00_scope.md R5): no step changes them. -/
  config : Config
  /-- `code_memory`: the program image; CODE_LEN is its length (R25). -/
  code : List Byte
  /-- `data_memory` (R24). -/
  mem : Memory
  /-- `operand_stack` with the TOP entry at the head (R14); `sp` is its length (R15). -/
  stack : List Entry
  /-- `program_counter`: a byte offset into `code_memory` (R17). -/
  pc : Nat
  /-- The run's situation (R21). -/
  status : Status
  /-- The count of instructions completed so far (R22). -/
  icount : Nat
  /-- Absent, or the record of the run's one fault (R23). -/
  fault : Option FaultRecord
deriving DecidableEq, Repr

/-- Why the model's step stops with a fault. The faults of the machine itself are not here: the spec describes what
each does (an error halt), so it is a next state. -/
inductive Fault where
  /-- Raised by `step` alone, in a state whose status is not RUNNING: "A halted machine has no step", "it is
  finished" (spec/40_fetch_decode_execute.md R71). Safe: the hardware does not go on either. -/
  | halted (status : Status)
deriving DecidableEq, Repr

/-- Why the model gives no meaning. -/
inductive Refusal where
  /-- An instruction that has no meaning yet; raised by no arm of this model. Safe. -/
  | notModelled (mnemonic : String)
  /-- Raised by `State.push` for a value outside -32768..32767: the signed-range check on push, whose failure has no
  consequence in the source (spec/10_state.md R16; spec/93_implementation_defined.md U9 asks for a refusal). No
  well-formed instruction reaches it. Safe. -/
  | pushOutOfRange
deriving DecidableEq, Repr

/-- Reset: a fresh Machine State for a run of the image `code` with the initial data image `init`
(spec/10_state.md R27, spec/70_reset_and_hazards.md R114, R116). -/
def State.fresh (config : Config) (init : Memory) (code : List Byte) : State :=
  { config := config, code := code, mem := init, stack := [], pc := 0, status := .running, icount := 0, fault := none }

/-- The state right after reset with the default parameters of spec/00_scope.md R5 and no program loaded yet, that is
with the empty image (log entry 3). -/
def State.reset : State := State.fresh Config.default [] []

end Sys2Proof.Machine
end

