-- ==== Sys2Proof/Machine/Ops.lean ====
section
/-! DEFINITION. The named operations over the state: the ports of the two memories, the stack primitives, retirement,
the normal halt, and taking a fault (the one exception mechanism of this machine; there is no return from it,
spec/60_exceptions.md R106). -/

namespace Sys2Proof.Machine

/-! ## Reading the state -/

/-- `sp`: the number of entries on the stack (spec/10_state.md R15). -/
def State.sp (s : State) : Nat := s.stack.length

/-- `S[i]`, counted from the bottom, `S[0]` the oldest (spec/10_state.md R14); nothing at `sp` and above. -/
def State.entry (s : State) (i : Nat) : Option Entry := s.stack.reverse[i]?

/-- `CodeRead(a)` (spec/20_memory.md R29): the byte of the image at `a`, none at CODE_LEN and above. -/
def State.codeRead (s : State) (a : Nat) : Option Byte := s.code[a]?

/-- `InExtent(a)`: 0 <= a < MEM_SIZE on a mathematical integer, with no reduction first (spec/20_memory.md R33). -/
abbrev State.inExtent (s : State) (a : Int) : Prop := 0 ≤ a ∧ a < s.config.memSize

/-- `MemRead(a, 1)` (spec/20_memory.md R31). -/
def State.memRead (s : State) (a : Nat) : Byte := s.mem.read a

/-! ## Writing the state -/

/-- `MemWrite(a, 1, v)` (spec/20_memory.md R32). -/
def State.memWrite (s : State) (a : Nat) (v : Byte) : State := { s with mem := s.mem.write a v }

/-- The stack replaced. -/
def State.withStack (s : State) (stack : List Entry) : State := { s with stack := stack }

/-- Retirement of a completed instruction: `pc <- pc + size`, `icount <- icount + 1`
(spec/40_fetch_decode_execute.md R72, R74; spec/10_state.md R22). -/
def State.retire (s : State) (size : Nat) : State := { s with pc := s.pc + size, icount := s.icount + 1 }

/-- The normal halt changes the status and nothing else (spec/40_fetch_decode_execute.md R75). -/
def State.haltNormally (s : State) : State := { s with status := .haltedOk }

/-- `raise F(info)`: the error halt. It writes the fault record with the present `icount` and `pc`, sets the status,
and changes nothing else (spec/60_exceptions.md R101 to R103). There is no handler and no vector. -/
def State.raise (s : State) (c : Cause) : State :=
  { s with fault := some { cause := c, index := s.icount, pc := s.pc }, status := .haltedErr }

/-! ## The fault's kind and code -/

/-- The name of a fault (spec/60_exceptions.md R94). -/
def Cause.kind : Cause → FaultKind
  | .truncatedInstruction _ _ _ => .truncatedInstructionError
  | .unknownOpcode _ _ => .unknownOpcodeError
  | .stackUnderflow _ _ => .stackUnderflowError
  | .outOfBounds _ => .outOfBoundsError
  | .stackOverflow => .stackOverflow

/-- The numeric code of a kind (spec/60_exceptions.md R113). -/
def FaultKind.code : FaultKind → Nat
  | .truncatedInstructionError => 1
  | .unknownOpcodeError => 2
  | .stackUnderflowError => 3
  | .outOfBoundsError => 4
  | .stackOverflow => 5

/-- The numeric code of the state's fault, 0 for none (spec/60_exceptions.md R113). -/
def State.faultCode (s : State) : Nat :=
  match s.fault with
  | none => 0
  | some r => r.cause.kind.code

/-! ## Executing and concluding an instruction -/

/-- Why an execution routine does not complete: it raises a fault of the machine, or the model gives no meaning. -/
inductive Stop where
  | raise (c : Cause)
  | refuse (r : Refusal)
deriving DecidableEq, Repr

/-- The end of an instruction of the given size, from the state before it and what its execution routine
answered: the completed instruction retires; a fault is raised in the state BEFORE the instruction, so that nothing of
a partial effect stays (spec/40_fetch_decode_execute.md R72, spec/60_exceptions.md R103). -/
def State.conclude (s : State) (size : Nat) (r : Except Stop State) : Host.Outcome State Fault Refusal :=
  match r with
  | .ok t => .next (t.retire size)
  | .error (.raise c) => .next (s.raise c)
  | .error (.refuse r) => .refused r

/-- `Push(v)` for a mathematical integer `v` (spec/10_state.md R16): the signed-range check, then, with a finite
STACK_DEPTH only, StackOverflow when `sp` equals it (R99), then the new top entry. -/
def State.push (s : State) (v : Int) : Except Stop State :=
  if -32768 ≤ v ∧ v ≤ 32767 then
    if s.config.stackDepth = some s.sp then .error (.raise .stackOverflow)
    else .ok (s.withStack (BitVec.ofInt 16 v :: s.stack))
  else .error (.refuse .pushOutOfRange)

/-! ## Fetching -/

/-- The decoder at the program counter (spec/40_fetch_decode_execute.md R72). -/
def State.fetch (s : State) : Decoded := decodeAt s.code s.pc

/-- The image with `bytes` in place of what stands from `at_` on, filled up with zero bytes before `at_` if it is
shorter. -/
def placeBytes (code : List Byte) (at_ : Nat) (bytes : List Byte) : List Byte :=
  (code ++ List.replicate (at_ - code.length) 0).take at_ ++ bytes ++ code.drop (at_ + bytes.length)

end Sys2Proof.Machine
end

