-- ==== Sys2Proof/Machine/Illegal.lean ====
section
/-! DEFINITION. The four illegal classes (spec/30_encoding.md R63): each takes the UnknownOpcodeError, an error halt
(spec/60_exceptions.md R96, R101). -/

namespace Sys2Proof.Machine

/-- UnknownOpcodeError for a first byte of the given class and low bits (spec/60_exceptions.md R96, R102). -/
def State.raiseUnknown (s : State) (a : BitVec 3) (low : BitVec 5) : State :=
  s.raise (.unknownOpcode a (classByte a low))

/-- A first byte of class 0 (spec/60_exceptions.md R96). -/
def execIllegalA0 (low : BitVec 5) (s : State) : Host.Outcome State Fault Refusal :=
  .next (s.raiseUnknown 0 low)

/-- A first byte of class 5 (spec/60_exceptions.md R96). -/
def execIllegalA5 (low : BitVec 5) (s : State) : Host.Outcome State Fault Refusal :=
  .next (s.raiseUnknown 5 low)

/-- A first byte of class 6 (spec/60_exceptions.md R96). -/
def execIllegalA6 (low : BitVec 5) (s : State) : Host.Outcome State Fault Refusal :=
  .next (s.raiseUnknown 6 low)

/-- A first byte of class 7 (spec/60_exceptions.md R96). -/
def execIllegalA7 (low : BitVec 5) (s : State) : Host.Outcome State Fault Refusal :=
  .next (s.raiseUnknown 7 low)

end Sys2Proof.Machine
end

