-- ==== Sys2Proof/Machine/Operands.lean ====
section
/-! DEFINITION. The operand forms: the top entry, the top two entries, an absolute cell address, the address on the
stack plus an offset, and the reduction of an entry to a cell value. -/

namespace Sys2Proof.Machine

/-- `v & 0xFF`, the low 8 bits of an entry (spec/20_memory.md R36, spec/42_memory_access.md R87). -/
def lowByte (v : Entry) : Byte := v.extractLsb' 0 8

/-- The top entry and the state without it; StackUnderflowError when there is none. The count is tested before
anything is removed (spec/60_exceptions.md R97). -/
def State.popOne (s : State) : Except Stop (Entry × State) :=
  match s.stack with
  | v :: rest => .ok (v, s.withStack rest)
  | [] => .error (.raise (.stackUnderflow 1 s.sp))

/-- The top entry, the entry below it, and the state without both; StackUnderflowError when fewer than two are present
(spec/60_exceptions.md R97, spec/43_rol.md R91). -/
def State.popTwo (s : State) : Except Stop (Entry × Entry × State) :=
  match s.stack with
  | v :: a :: rest => .ok (v, a, s.withStack rest)
  | [_] => .error (.raise (.stackUnderflow 2 s.sp))
  | [] => .error (.raise (.stackUnderflow 2 s.sp))

/-- The cell an address names; OutOfBoundsError with the address when it is outside the extent
(spec/20_memory.md R33, spec/60_exceptions.md R98). -/
def State.cellAddress (s : State) (a : Int) : Except Stop Nat :=
  if s.inExtent a then .ok a.toNat else .error (.raise (.outOfBounds a))

/-- The effective address of STORE_MEM: the popped value plus the offset, exact integer addition
(spec/42_memory_access.md R86). -/
def storeAddress (v : Entry) (offset : Int) : Int := v.toInt + offset

end Sys2Proof.Machine
end

