-- ==== Sys2Proof/Machine/LoadConst.lean ====
section
/-! DEFINITION. LOAD_CONST (spec/41_load_const.md). -/

namespace Sys2Proof.Machine

/-- `LOAD_CONST B`: push the constant, 2 bytes (spec/41_load_const.md R81). -/
def execLoadConst (constant : Nat) (s : State) : Host.Outcome State Fault Refusal :=
  s.conclude 2 (s.push constant)

end Sys2Proof.Machine
end

