-- ==== Sys2Proof/Machine/MemoryAccess.lean ====
section
/-! DEFINITION. LOAD_MEM and STORE_MEM (spec/42_memory_access.md). -/

namespace Sys2Proof.Machine

/-- `LOAD_MEM B`: push the cell at absolute address `B`, zero-extended, 4 bytes (spec/42_memory_access.md R83). -/
def execLoadMem (address : Nat) (s : State) : Host.Outcome State Fault Refusal :=
  s.conclude 4 do
    let a ← s.cellAddress address
    s.push (s.memRead a).toNat

/-- `STORE_MEM offset`: pop `v`, store its low byte at `v + offset`, 2 bytes (spec/42_memory_access.md R85). -/
def execStoreMem (offset : Int) (s : State) : Host.Outcome State Fault Refusal :=
  s.conclude 2 do
    let (v, popped) ← s.popOne
    let a ← s.cellAddress (storeAddress v offset)
    return popped.memWrite a (lowByte v)

end Sys2Proof.Machine
end

