-- ==== Sys2Proof/Machine/Flags.lean ====
section
/-! DEFINITION. Flags: the machine has none (spec/10_state.md R20), no instruction sets or reads a carry, zero, sign or
overflow indication, so no flag computation stands here. The file keeps the one ALU operation, which records no
carry-out. -/

namespace Sys2Proof.Machine

/-- `rol8(v, n)`: rotate left within 8 bits by `n mod 8` (spec/43_rol.md R90). -/
def rol8 (v : Byte) (n : Nat) : Byte :=
  if n % 8 = 0 then v else (v <<< (n % 8)) ||| (v >>> (8 - n % 8))

end Sys2Proof.Machine
end

