-- ==== Sys2Proof/Machine/Rol.lean ====
section
/-! DEFINITION. ROL (spec/43_rol.md). -/

namespace Sys2Proof.Machine

/-- `ROL`: pop the datum `v` (top) and the count address `a` (below it), push `v`'s low byte rotated left by the count
in cell `a`, 1 byte (spec/43_rol.md R89, R91). -/
def execRol (s : State) : Host.Outcome State Fault Refusal :=
  s.conclude 1 do
    let (v, a, popped) ← s.popTwo
    let c ← s.cellAddress a.toInt
    popped.push (rol8 (lowByte v) (s.memRead c).toNat).toNat

end Sys2Proof.Machine
end

