-- ==== Sys2Proof/Machine/Dispatch.lean ====
section
/-! DEFINITION. Dispatch on the instruction alone (spec/40_fetch_decode_execute.md R73), one arm per constructor. -/

namespace Sys2Proof.Machine

/-- One instruction's whole effect, its retirement or its error halt included. -/
def exec (i : Instr) (s : State) : Host.Outcome State Fault Refusal :=
  match i with
  | .storeMem offset => Sys2Proof.Machine.execStoreMem offset s
  | .loadConst constant => Sys2Proof.Machine.execLoadConst constant s
  | .loadMem address => Sys2Proof.Machine.execLoadMem address s
  | .rol => Sys2Proof.Machine.execRol s
  | .illegalA0 low => Sys2Proof.Machine.execIllegalA0 low s
  | .illegalA5 low => Sys2Proof.Machine.execIllegalA5 low s
  | .illegalA6 low => Sys2Proof.Machine.execIllegalA6 low s
  | .illegalA7 low => Sys2Proof.Machine.execIllegalA7 low s

end Sys2Proof.Machine
end

