-- ==== Sys2Proof/Machine/Step.lean ====
section
/-! DEFINITION. One pass of the fetch-decode-execute loop (spec/40_fetch_decode_execute.md R72). -/

namespace Sys2Proof.Machine

/-- `Step` (spec/40_fetch_decode_execute.md R72): defined while the status is RUNNING; a halted machine has no step
(R71). At the end of the image it halts normally (R75); a truncated instruction is an error halt (R76). -/
def step (s : State) : Host.Outcome State Fault Refusal :=
  match s.status with
  | .running =>
    match s.fetch with
    | .endOfImage => .next s.haltNormally
    | .truncated a size remaining => .next (s.raise (.truncatedInstruction a size remaining))
    | .instr i => exec i s
  | .haltedOk => .fault (.halted .haltedOk)
  | .haltedErr => .fault (.halted .haltedErr)

/-- The state with a table word's bytes in the image at the program counter, and the run going, so that the next step
fetches and runs exactly it. It stands for the host's load of a program (log entry 3). -/
def State.withFetchWord (s : State) (nbits w : Nat) : State :=
  { s with code := placeBytes s.code s.pc (tableBytes nbits w), status := .running, fault := none }

end Sys2Proof.Machine
end

