-- ==== Sys2Proof/Machine/Assembler.lean ====
section
/-! DEFINITION. The program image and the assembler's accepted syntax, recorded by the spec so that programs can be
written as text (spec/30_encoding.md R66 to R69). The error names of that software are out of scope
(spec/00_scope.md R4): a rejected line is only rejected. -/

namespace Sys2Proof.Machine

/-- The image: the concatenation of each instruction's bytes, no header, no padding (spec/30_encoding.md R66). -/
def assemble (is : List Instr) : List Byte := is.flatMap encode

/-- What a line of source text is. -/
inductive SourceLine where
  /-- Blank or comment only: no instruction. -/
  | blank
  /-- One instruction with its operand in range. -/
  | instr (i : Instr)
  /-- Not accepted. -/
  | rejected
deriving DecidableEq, Repr

/-- White space between tokens: blank, tab, carriage return (log entry 14). -/
def isSpace (c : Char) : Bool := c == ' ' || c == '\t' || c == '\r'

/-- Cut a text at every character that satisfies `p`. -/
def splitAtChars (p : Char → Bool) : List Char → List (List Char)
  | [] => [[]]
  | c :: cs =>
    if p c then [] :: splitAtChars p cs
    else match splitAtChars p cs with
      | [] => [[c]]
      | w :: ws => (c :: w) :: ws

/-- The tokens of a line, its comment cut off at the first semicolon. -/
def lineTokens (line : List Char) : List (List Char) :=
  (splitAtChars isSpace (line.takeWhile (fun c => c != ';'))).filter (fun w => !w.isEmpty)

/-- A letter in upper case: mnemonics are case-insensitive. -/
def upperChar (c : Char) : Char :=
  if 97 ≤ c.toNat ∧ c.toNat ≤ 122 then Char.ofNat (c.toNat - 32) else c

/-- Decimal digits read onto a value so far. -/
def digitsOnto : Nat → List Char → Option Nat
  | n, [] => some n
  | n, c :: cs => if 48 ≤ c.toNat ∧ c.toNat ≤ 57 then digitsOnto (10 * n + (c.toNat - 48)) cs else none

/-- A decimal integer with an optional minus sign (spec/30_encoding.md R67; log entry 14). -/
def integerLiteral : List Char → Option Int
  | [] => none
  | '-' :: c :: cs => (digitsOnto 0 (c :: cs)).map (fun n => -(n : Int))
  | c :: cs => (digitsOnto 0 (c :: cs)).map (fun n => (n : Int))

/-- An instruction whose operand is in range; -1 and its like are no natural operand (spec/30_encoding.md R68). -/
def accepted (i : Instr) (natural : Bool) : SourceLine :=
  if natural && i.wellFormed then .instr i else .rejected

/-- A line of source text (spec/30_encoding.md R67, R68). R67 tolerates "a trailing token" after ROL; DESIGN CHOICE
(log entry 14): any number of them is ignored. -/
def parseLine (line : List Char) : SourceLine :=
  match lineTokens line with
  | [] => .blank
  | m :: args =>
    let name := m.map upperChar
    if name = ['R', 'O', 'L'] then .instr .rol
    else match args with
      | [w] =>
        match integerLiteral w with
        | none => .rejected
        | some b =>
          if name = ['S', 'T', 'O', 'R', 'E', '_', 'M', 'E', 'M'] then accepted (.storeMem b) true
          else if name = ['L', 'O', 'A', 'D', '_', 'C', 'O', 'N', 'S', 'T'] then
            accepted (.loadConst b.toNat) (decide (0 ≤ b))
          else if name = ['L', 'O', 'A', 'D', '_', 'M', 'E', 'M'] then
            accepted (.loadMem b.toNat) (decide (0 ≤ b))
          else .rejected
      | [] => .rejected
      | _ :: _ :: _ => .rejected

/-- The instructions of the parsed lines in source order; none where a line is rejected. -/
def gatherLines : List SourceLine → Option (List Instr)
  | [] => some []
  | .blank :: ls => gatherLines ls
  | .instr i :: ls => (gatherLines ls).map (fun is => i :: is)
  | .rejected :: _ => none

/-- The image of a source text, one instruction a line; none where a line is not accepted. -/
def assembleText (text : List Char) : Option (List Byte) :=
  (gatherLines ((splitAtChars (fun c => c == '\n') text).map parseLine)).map assemble

end Sys2Proof.Machine
end

