-- ==== Sys2Proof/Machine/Snapshot.lean ====
section
/-! DEFINITION. What the host reads after a run (spec/70_reset_and_hazards.md R126, R127). Reading changes nothing. -/

namespace Sys2Proof.Machine

/-- The content of a snapshot (spec/70_reset_and_hazards.md R126), with the fault report of an error halt
(spec/60_exceptions.md R102). -/
structure Snapshot where
  /-- The range's first address. -/
  start : Nat
  /-- The range's last address. -/
  last : Nat
  /-- MEM_SIZE -/
  memSize : Nat
  /-- `sp` -/
  stackSize : Nat
  /-- The non-zero cells of the range, address and value, addresses rising. -/
  cells : List Host.Cell
  /-- The whole stack, bottom to top. -/
  stack : List Entry
  /-- The fault report, absent after a normal halt. -/
  fault : Option FaultRecord
deriving DecidableEq, Repr

/-- The snapshot of the address range [start, last]. -/
def State.snapshot (s : State) (start last : Nat) : Snapshot :=
  { start := start
    last := last
    memSize := s.config.memSize
    stackSize := s.sp
    cells := s.mem.filter (fun c => decide (start ≤ c.1) && decide (c.1 ≤ last))
    stack := s.stack.reverse
    fault := s.fault }

end Sys2Proof.Machine
end

