-- ==== Sys2Proof/Safety.lean ====
section
/-! DEFINITION. The terms claims are stated in: the invariant of the reachable states, runs, the walk over an image's
instructions, the stores of a run, and the canonical form of an encoding. -/

namespace Sys2Proof.Machine

/-- What holds in every reachable state. -/
structure State.Inv (s : State) : Prop where
  /-- The parameters meet their constraints (spec/00_scope.md R5). -/
  configOk : s.config.wellFormed = true
  /-- The data memory is in its canonical form. -/
  memCanonical : s.mem.wf
  /-- Only cells of the extent exist (spec/10_state.md R24). -/
  memWithin : s.mem.within s.config.memSize
  /-- Every stack entry lies in 0..1023 (spec/40_fetch_decode_execute.md R80). -/
  entries : ∀ v ∈ s.stack, 0 ≤ v.toInt ∧ v.toInt ≤ 1023
  /-- A finite stack is never over-full (spec/10_state.md R16). -/
  depth : ∀ d ∈ s.config.stackDepth, s.sp ≤ d
  /-- `sp <= floor(pc / 2)` (spec/10_state.md R15). -/
  stackBound : 2 * s.sp ≤ s.pc
  /-- `pc <= CODE_LEN` (spec/10_state.md R18). -/
  pcBound : s.pc ≤ s.code.length
  /-- At most one instruction completed per byte passed (spec/10_state.md R13: `icount` in 0..CODE_LEN). -/
  icountBound : s.icount ≤ s.pc
  /-- The fault record is present exactly in an error halt (spec/10_state.md R23). -/
  faultIff : s.fault.isSome = true ↔ s.status = .haltedErr
  /-- The record's index and pc are the retained `icount` and `pc` (spec/60_exceptions.md R102). -/
  report : ∀ r ∈ s.fault, r.index = s.icount ∧ r.pc = s.pc
  /-- A normal halt stands at the end of the image (spec/70_reset_and_hazards.md R123). -/
  okAtEnd : s.status = .haltedOk → s.pc = s.code.length
  /-- An error halt stands at the first byte of an instruction (spec/70_reset_and_hazards.md R123). -/
  errInside : s.status = .haltedErr → s.pc < s.code.length

/-- `k` steps, stopping where a step does not answer a next state. -/
def run : Nat → State → Host.Outcome State Fault Refusal
  | 0, s => .next s
  | k + 1, s =>
    match step s with
    | .next t => run k t
    | .fault r => .fault r
    | .refused r => .refused r

/-- The offset of the first byte of the `k`-th instruction of an image, counted from 0, or of the byte after the last
(spec/30_encoding.md R66): instruction `k+1` starts where instruction `k` ends. -/
def instrOffset (code : List Byte) : Nat → Option Nat
  | 0 => some 0
  | k + 1 =>
    match instrOffset code k with
    | none => none
    | some c =>
      match decodeAt code c with
      | .instr i => i.size.map (fun n => c + n)
      | .endOfImage => none
      | .truncated _ _ _ => none

/-- The store the next step performs, as cell and value, if it is a STORE_MEM that completes
(spec/42_memory_access.md R85). -/
def State.nextStore (s : State) : Option (Nat × Byte) :=
  match s.status, s.fetch, s.stack with
  | .running, .instr (.storeMem offset), v :: _ =>
    if s.inExtent (storeAddress v offset) then some ((storeAddress v offset).toNat, lowByte v) else none
  | _, _, _ => none

/-- The stores of the next `k` steps, in program order. -/
def State.stores : Nat → State → List (Nat × Byte)
  | 0, _ => []
  | k + 1, s =>
    match step s with
    | .next t => s.nextStore.toList ++ State.stores k t
    | .fault _ => []
    | .refused _ => []

/-- The value of the last store to a cell, if there is one. -/
def lastStore (a : Nat) : List (Nat × Byte) → Option Byte
  | [] => none
  | c :: cs =>
    match lastStore a cs with
    | some v => some v
    | none => if c.1 = a then some c.2 else none

/-- The bytes of the instruction a byte sequence begins with, its pad bits cleared (spec/30_encoding.md R61, R62). -/
def clearPads : List Byte → List Byte
  | [] => []
  | b0 :: rest =>
    match OpClass.ofBits (classBits b0) with
    | .storeMem => b0 :: rest.take 1
    | .loadConst => b0 :: (rest.take 1).map (fun b => b &&& 0xF8)
    | .loadMem => b0 :: (rest.take 2 ++ ((rest.drop 2).take 1).map (fun b => b &&& 0xE0))
    | .rol => [b0 &&& 0xE0]
    | .illegal0 => [b0]
    | .illegal5 => [b0]
    | .illegal6 => [b0]
    | .illegal7 => [b0]

end Sys2Proof.Machine
end

