-- ==== Sys2Proof/Certificates/Slice0/Obligations.lean ====
section
/-! DEFINITION. The statements for the provers. Each docstring names the rule of spec/ it formalises; where a clause
rests on a decision the spec marks as its own (spec/92_eei_decisions.md), the docstring says so. -/

open Sys2Proof Sys2Proof.Machine

/-! ## Encoding and decoding -/

/-- Decoding the encoding of a well-formed instruction gives it back, whatever bytes follow: R65 ("decode(encode(x))
== x ... across the full legal operand range of each opcode") and R56 (the bytes that follow do not matter), for the
four instructions and the bytes of the illegal classes. -/
def Obligations.DecodeEncodeRoundTrip : Prop :=
  ∀ (i : Instr) (rest : List Byte), i.wellFormed = true → decode (encode i ++ rest) = .instr i

/-- Encoding a decoded instruction gives its bytes with the pad bits cleared: the converse half of R65, an inference
the spec marks as its own. -/
def Obligations.EncodeDecodeClearsPadBits : Prop :=
  ∀ (bs : List Byte) (i : Instr), decode bs = .instr i → encode i = clearPads bs

/-- A decoded instruction is well-formed, so the decoder needs no range check, and all its bytes are there: R60 and
the last sentence of R59. -/
def Obligations.DecodedInstructionIsWellFormed : Prop :=
  ∀ (bs : List Byte) (i : Instr), decode bs = .instr i →
    i.wellFormed = true ∧ ∀ n, i.size = some n → n ≤ bs.length

/-- R52: `B = W[12:3] = (CODE[c][4:0] << 5) | CODE[c+1][7:3]`, unsigned, 0..1023. -/
def Obligations.LoadConstOperandAssembly : Prop :=
  ∀ (b0 b1 : Byte) (rest : List Byte), b0.toNat >>> 5 = 2 →
    decode (b0 :: b1 :: rest) = .instr (.loadConst (((b0.toNat % 32) <<< 5) ||| (b1.toNat >>> 3))) ∧
    ((b0.toNat % 32) <<< 5) ||| (b1.toNat >>> 3) = (b0.toNat * 256 + b1.toNat) / 8 % 1024 ∧
    ((b0.toNat % 32) <<< 5) ||| (b1.toNat >>> 3) ≤ 1023

/-- R53: `U = W[12:0] = (CODE[c][4:0] << 8) | CODE[c+1]`, then `B = U` when `U < 4096` and `B = U - 8192` when
`U >= 4096`, in -4096..4095. -/
def Obligations.StoreMemOperandAssembly : Prop :=
  ∀ (b0 b1 : Byte) (rest : List Byte) (u : Nat), b0.toNat >>> 5 = 1 → u = ((b0.toNat % 32) <<< 8) ||| b1.toNat →
    decode (b0 :: b1 :: rest) = .instr (.storeMem (if u < 4096 then (u : Int) else (u : Int) - 8192)) ∧
    u = (b0.toNat * 256 + b1.toNat) % 8192 ∧
    -4096 ≤ (if u < 4096 then (u : Int) else (u : Int) - 8192) ∧
    (if u < 4096 then (u : Int) else (u : Int) - 8192) ≤ 4095

/-- R54: `B = W[28:5] = (CODE[c][4:0] << 19) | (CODE[c+1] << 11) | (CODE[c+2] << 3) | CODE[c+3][7:5]`, unsigned,
0..16777215; and ROL has no operand. -/
def Obligations.LoadMemOperandAssembly : Prop :=
  (∀ (b0 b1 b2 b3 : Byte) (rest : List Byte) (b : Nat), b0.toNat >>> 5 = 3 →
    b = ((b0.toNat % 32) <<< 19) ||| (b1.toNat <<< 11) ||| (b2.toNat <<< 3) ||| (b3.toNat >>> 5) →
    decode (b0 :: b1 :: b2 :: b3 :: rest) = .instr (.loadMem b) ∧
    b = (((b0.toNat * 256 + b1.toNat) * 256 + b2.toNat) * 256 + b3.toNat) / 32 % 16777216 ∧
    b ≤ 16777215) ∧
  ∀ (b0 : Byte) (rest : List Byte), b0.toNat >>> 5 = 4 → decode (b0 :: rest) = .instr .rol

/-- R59: the decoder reports a truncation exactly when the class is 1, 2 or 3 (never ROL) and fewer bytes remain from
the cursor to the end of the image than the class needs; an instruction is decoded only if `c + size <= CODE_LEN`; and
the source's example, a single byte of class 3. -/
def Obligations.TruncationIffTooFewBytes : Prop :=
  (∀ (code : List Byte) (c : Nat) (a : BitVec 3) (n r : Nat), c ≤ code.length →
    (decodeAt code c = .truncated a n r ↔
      ∃ b0, code[c]? = some b0 ∧ a.toNat = b0.toNat >>> 5 ∧
        ((a.toNat = 1 ∧ n = 2) ∨ (a.toNat = 2 ∧ n = 2) ∨ (a.toNat = 3 ∧ n = 4)) ∧
        r = code.length - c ∧ code.length - c < n)) ∧
  (∀ (code : List Byte) (c : Nat) (i : Instr) (n : Nat), c ≤ code.length →
    decodeAt code c = .instr i → i.size = some n → c + n ≤ code.length) ∧
  decode [0x60] = .truncated 3 4 1

/-- R62: the canonical encoding by its formulas, pad bits 0. -/
def Obligations.EncodeFollowsFormula : Prop :=
  encode .rol = [0x80] ∧
  (∀ b w : Nat, b ≤ 1023 → w = (2 <<< 13) ||| (b <<< 3) →
    encode (.loadConst b) = [BitVec.ofNat 8 (w / 256), BitVec.ofNat 8 (w % 256)]) ∧
  (∀ (b : Int) (u w : Nat), -4096 ≤ b → b ≤ 4095 → (u : Int) = (if 0 ≤ b then b else b + 8192) →
    w = (1 <<< 13) ||| u →
    encode (.storeMem b) = [BitVec.ofNat 8 (w / 256), BitVec.ofNat 8 (w % 256)]) ∧
  (∀ b w : Nat, b ≤ 16777215 → w = (3 <<< 29) ||| (b <<< 5) →
    encode (.loadMem b) = [BitVec.ofNat 8 (w / 16777216), BitVec.ofNat 8 (w / 65536 % 256),
      BitVec.ofNat 8 (w / 256 % 256), BitVec.ofNat 8 (w % 256)])

/-- Pad bits and following bytes do not change what is decoded: R61, which rests on the spec's own decision D10 (log
entry 10). -/
def Obligations.PadBitsAreIgnored : Prop :=
  (∀ (b0 : Byte) (rest : List Byte), b0.toNat >>> 5 = 4 → decode (b0 :: rest) = decode [0x80]) ∧
  (∀ (b0 b1 b1' : Byte) (rest rest' : List Byte), b0.toNat >>> 5 = 2 → b1.toNat >>> 3 = b1'.toNat >>> 3 →
    decode (b0 :: b1 :: rest) = decode (b0 :: b1' :: rest')) ∧
  (∀ (b0 b1 b2 b3 b3' : Byte) (rest rest' : List Byte), b0.toNat >>> 5 = 3 →
    b3.toNat >>> 5 = b3'.toNat >>> 5 →
    decode (b0 :: b1 :: b2 :: b3 :: rest) = decode (b0 :: b1 :: b2 :: b3' :: rest'))

/-- The opcode map of R70: with enough bytes behind it, the first byte alone selects the row; for STORE_MEM first bytes
0x20..0x2F carry a non-negative offset and 0x30..0x3F a negative one (the last sentence is an inference the spec marks
as its own). -/
def Obligations.FirstByteSelectsTheRow : Prop :=
  ∀ (b0 b1 b2 b3 : Byte) (rest : List Byte), ∃ i, decode (b0 :: b1 :: b2 :: b3 :: rest) = .instr i ∧
    (b0.toNat < 0x20 → i.opClass = .illegal0 ∧ i.size = none) ∧
    (0x20 ≤ b0.toNat → b0.toNat < 0x40 → ∃ off, i = .storeMem off ∧ (0 ≤ off ↔ b0.toNat < 0x30)) ∧
    (0x40 ≤ b0.toNat → b0.toNat < 0x60 → i.opClass = .loadConst ∧ i.size = some 2) ∧
    (0x60 ≤ b0.toNat → b0.toNat < 0x80 → i.opClass = .loadMem ∧ i.size = some 4) ∧
    (0x80 ≤ b0.toNat → b0.toNat < 0xA0 → i = .rol) ∧
    (0xA0 ≤ b0.toNat → b0.toNat < 0xC0 → i.opClass = .illegal5 ∧ i.size = none) ∧
    (0xC0 ≤ b0.toNat → b0.toNat < 0xE0 → i.opClass = .illegal6 ∧ i.size = none) ∧
    (0xE0 ≤ b0.toNat → i.opClass = .illegal7 ∧ i.size = none)

/-- The decoder block's outputs (R46, R47, R56): it needs at most the four bytes of its window; `A` is the top three
bits of the byte at the cursor; `size` is the class table's, from `A` alone; the next cursor is `c + size` exactly where
the result is an instruction (none at the end, for a truncation and for an illegal class), and lies inside the image.
That R56 gives the block these outputs is the spec's decision D16. -/
def Obligations.DecoderBlockOutputs : Prop :=
  ∀ (code : List Byte) (c : Nat), c ≤ code.length →
    decodeAt code c = decode ((code.drop c).take 4) ∧
    (∀ b0, code[c]? = some b0 →
      (decodeAt code c).classField = some (BitVec.ofNat 3 (b0.toNat >>> 5)) ∧
      (decodeAt code c).encodedSize =
        match b0.toNat >>> 5 with
        | 1 => some 2
        | 2 => some 2
        | 3 => some 4
        | 4 => some 1
        | _ => none) ∧
    (∀ n, (decodeAt code c).nextCursor c = some n ↔
      ∃ i m, decodeAt code c = .instr i ∧ i.size = some m ∧ n = c + m) ∧
    ∀ n, (decodeAt code c).nextCursor c = some n → c < n ∧ n ≤ code.length

/-- Fetching reads the code port (R29) at the instruction's own bytes only, `pc` to `pc + size - 1` (one byte, for an
illegal class): another image that answers the same there gives the same instruction (R56, R57). -/
def Obligations.FetchReadsOnlyItsOwnBytes : Prop :=
  ∀ (s t : State) (i : Instr), s.fetch = .instr i → t.pc = s.pc →
    (∀ j, j < i.size.getD 1 → t.codeRead (s.pc + j) = s.codeRead (s.pc + j)) → t.fetch = .instr i

/-- A few words written out from R48 to R51, one or more of each format, decode to what they stand for
(spec/95_test_vectors.md S4, V1, V2, V3). -/
def Obligations.SampleWordsDecode : Prop :=
  decode [0x80] = .instr .rol ∧
  decode [0x9F] = .instr .rol ∧
  decode [0x4A, 0xB8] = .instr (.loadConst 343) ∧
  decode [0x4A, 0x17] = .instr (.loadConst 322) ∧
  decode [0x3E, 0xD4] = .instr (.storeMem (-300)) ∧
  decode [0x20, 0xFF] = .instr (.storeMem 255) ∧
  decode [0x62, 0x46, 0x8A, 0xC0] = .instr (.loadMem 1193046) ∧
  decode [0x1F] = .instr (.illegalA0 31) ∧
  decode [0xA0] = .instr (.illegalA5 0) ∧
  decode [0xC1, 0x02, 0x03, 0x04] = .instr (.illegalA6 1) ∧
  decode [0xFF] = .instr (.illegalA7 31) ∧
  decodeTableWord 32 0x60002000 = some (.loadMem 256)

/-- An assembled image decodes, at the offset where instruction `k` begins, to instruction `k` (R66: each instruction
starts where the one before it ends), and at its end to no instruction (R58). -/
def Obligations.ImageDecodesToItsInstructions : Prop :=
  ∀ is : List Instr, (∀ i ∈ is, i.wellFormed = true) →
    (∀ (k : Nat) (i : Instr), is[k]? = some i →
      decodeAt (assemble is) (assemble (is.take k)).length = .instr i) ∧
    decodeAt (assemble is) (assemble is).length = .endOfImage

/-! ## The ALU -/

/-- R90: the rotate by its formula, bit by bit (bit `i` of the result is bit `(i - k) mod 8` of `v`), and the source's
values. -/
def Obligations.RotateFollowsFormula : Prop :=
  (∀ (v : Byte) (n : Nat), n % 8 = 0 → rol8 v n = v) ∧
  (∀ (v : Byte) (n : Nat), n % 8 ≠ 0 →
    (rol8 v n).toNat = ((v.toNat <<< (n % 8)) ||| (v.toNat >>> (8 - n % 8))) &&& 0xFF) ∧
  (∀ (v : Byte) (n i : Nat), i < 8 → (rol8 v n).getLsbD i = v.getLsbD ((i + 8 - n % 8) % 8)) ∧
  rol8 129 1 = 3 ∧ (∀ v : Byte, rol8 v 8 = v) ∧ (∀ v : Byte, rol8 v 0 = v)

/-- R92, an inference the spec marks as its own: only `n mod 8` matters, rotates add up, a rotate by `k` then by
`8 - k` restores the value, and the population count is kept. -/
def Obligations.RotateCountLaws : Prop :=
  (∀ (v : Byte) (n : Nat), rol8 v (n + 8) = rol8 v n) ∧
  (∀ (v : Byte) (j k : Nat), rol8 (rol8 v j) k = rol8 v (j + k)) ∧
  (∀ (v : Byte) (k : Nat), k ≤ 8 → rol8 (rol8 v k) (8 - k) = v) ∧
  (∀ (v : Byte) (n : Nat),
    ((List.range 8).filter (fun i => (rol8 v n).getLsbD i)).length =
      ((List.range 8).filter (fun i => v.getLsbD i)).length)

/-! ## What each instruction does -/

/-- R81, LOAD_CONST: it pushes the constant itself, retires 2 bytes and touches nothing else; the one execution fault
is StackOverflow on a full finite stack (R81 names it; the fault is the spec's own, decision D5, log entry 12, and its
precise error halt is decision D9, log entry 6); class 2, 2 bytes; truncated when only one byte remains; the worked
example. -/
def Obligations.LoadConstPushesTheConstant : Prop :=
  (∀ (s : State) (b : Nat), b ≤ 1023 → s.config.stackDepth ≠ some s.stack.length →
    ∃ v : Entry, v.toInt = b ∧
      exec (.loadConst b) s = .next { s with stack := v :: s.stack, pc := s.pc + 2, icount := s.icount + 1 }) ∧
  (∀ (s : State) (b : Nat), b ≤ 1023 → s.config.stackDepth = some s.stack.length →
    exec (.loadConst b) s = .next { s with
      fault := some { cause := .stackOverflow, index := s.icount, pc := s.pc }, status := .haltedErr }) ∧
  (∀ b : Nat, b ≤ 1023 → ∃ b0 b1 : Byte, encode (.loadConst b) = [b0, b1] ∧ b0.toNat >>> 5 = 2 ∧
    decode [b0, b1] = .instr (.loadConst b) ∧ decode [b0] = .truncated 2 2 1) ∧
  step { State.reset with code := [0x4A, 0xB8] } =
    .next { State.reset with code := [0x4A, 0xB8], stack := [343], pc := 2, icount := 1 }

/-- R83, LOAD_MEM: inside the extent it pushes the cell, zero-extended, retires 4 bytes and touches nothing else;
outside it raises OutOfBoundsError before anything is pushed; class 3, 4 bytes; truncated when fewer than 4 bytes
remain; the worked example. That the error halt keeps `pc`, `icount` and all else is the spec's decision D9 (log entry
6). The push on a full finite stack is in StackOverflowExactlyWhenFull. -/
def Obligations.LoadMemPushesTheCell : Prop :=
  (∀ (s : State) (b : Nat), b ≤ 16777215 → b < s.config.memSize → s.config.stackDepth ≠ some s.stack.length →
    ∃ v : Entry, v.toInt = (s.mem.read b).toNat ∧
      exec (.loadMem b) s = .next { s with stack := v :: s.stack, pc := s.pc + 4, icount := s.icount + 1 }) ∧
  (∀ (s : State) (b : Nat), b ≤ 16777215 → s.config.memSize ≤ b →
    exec (.loadMem b) s = .next { s with
      fault := some { cause := .outOfBounds b, index := s.icount, pc := s.pc }, status := .haltedErr }) ∧
  (∀ b : Nat, b ≤ 16777215 → ∃ b0 b1 b2 b3 : Byte, encode (.loadMem b) = [b0, b1, b2, b3] ∧ b0.toNat >>> 5 = 3 ∧
    decode [b0, b1, b2, b3] = .instr (.loadMem b) ∧ decode [b0] = .truncated 3 4 1 ∧
    decode [b0, b1] = .truncated 3 4 2 ∧ decode [b0, b1, b2] = .truncated 3 4 3) ∧
  step { State.reset with code := [0x60, 0x00, 0x20, 0x00], mem := [(256, 200)] } =
    .next { State.reset with
      code := [0x60, 0x00, 0x20, 0x00], mem := [(256, 200)], stack := [200], pc := 4, icount := 1 }

/-- R85 to R87, STORE_MEM: with `v` on top and `v + offset` (exact) inside the extent it pops `v`, writes `v mod 256`
to that cell and to no other, and retires 2 bytes. The mask is the spec's decision D6, the one-operand convention D7,
the exact address D14 (log entries 7 and 9). The memory premise is the invariant StepKeepsInvariant states. -/
def Obligations.StoreMemWritesTheLowByte : Prop :=
  ∀ (s : State) (off : Int) (v : Entry) (rest : List Entry) (x : Nat), s.mem.wf → s.stack = v :: rest →
    v.toInt + off = x → x < s.config.memSize →
    ∃ m : Memory,
      exec (.storeMem off) s = .next { s with mem := m, stack := rest, pc := s.pc + 2, icount := s.icount + 1 } ∧
      ((m.read x).toNat : Int) = v.toInt % 256 ∧ (∀ y : Nat, y ≠ x → m.read y = s.mem.read y) ∧ m.wf

/-- R85, R97, R98, R104, STORE_MEM: on an empty stack StackUnderflowError(1, 0), whatever the offset; else, outside the
extent, OutOfBoundsError with the exact address; nothing popped, nothing written. Rests on the spec's decisions D9, D11
and D14 (log entries 6, 9, 11). -/
def Obligations.StoreMemFaultsInOrder : Prop :=
  (∀ (s : State) (off : Int), s.stack = [] →
    exec (.storeMem off) s = .next { s with
      fault := some { cause := .stackUnderflow 1 0, index := s.icount, pc := s.pc }, status := .haltedErr }) ∧
  (∀ (s : State) (off : Int) (v : Entry) (rest : List Entry), s.stack = v :: rest →
    (v.toInt + off < 0 ∨ (s.config.memSize : Int) ≤ v.toInt + off) →
    exec (.storeMem off) s = .next { s with
      fault := some { cause := .outOfBounds (v.toInt + off), index := s.icount, pc := s.pc }, status := .haltedErr })

/-- R89, R91, ROL: with the datum `v` on top and the count address `a` below it, inside the extent, both are removed
and `v mod 256` rotated left within 8 bits by `n mod 8` is pushed, `n` being cell `a`; 1 byte retires. The convention
is the spec's decision D7 (log entry 7). The stack-depth premise holds in every state whose finite stack is not
over-full. -/
def Obligations.RolRotatesTheTopEntry : Prop :=
  ∀ (s : State) (v a : Entry) (rest : List Entry) (x d k : Nat), s.stack = v :: a :: rest →
    a.toInt = x → x < s.config.memSize → (∀ e ∈ s.config.stackDepth, s.stack.length ≤ e) →
    (d : Int) = v.toInt % 256 → k = (s.mem.read x).toNat % 8 →
    ∃ r : Entry, r.toInt = ((d <<< k ||| d >>> (8 - k)) % 256 : Nat) ∧
      exec .rol s = .next { s with stack := r :: rest, pc := s.pc + 1, icount := s.icount + 1 }

/-- R89, R97, R98, R104, ROL: with fewer than two entries StackUnderflowError(2, sp), the entry staying; else, with the
count address outside the extent, OutOfBoundsError. Rests on the spec's decisions D8, D9 and D11 (log entries 6, 9,
11). -/
def Obligations.RolFaultsInOrder : Prop :=
  (∀ s : State, s.stack.length < 2 →
    exec .rol s = .next { s with
      fault := some { cause := .stackUnderflow 2 s.stack.length, index := s.icount, pc := s.pc },
      status := .haltedErr }) ∧
  (∀ (s : State) (v a : Entry) (rest : List Entry), s.stack = v :: a :: rest →
    (a.toInt < 0 ∨ (s.config.memSize : Int) ≤ a.toInt) →
    exec .rol s = .next { s with
      fault := some { cause := .outOfBounds a.toInt, index := s.icount, pc := s.pc }, status := .haltedErr })

/-- R96, the four ILLEGAL rows of the opcode table: each raises UnknownOpcodeError with its class and the offending
byte, whatever the other five bits are, and changes nothing but the status and the fault record. That nothing else
changes is the spec's decision D9 (log entry 6); that the rows are instructions is the model's choice (log entry 5). -/
def Obligations.IllegalClassesRaiseUnknownOpcode : Prop :=
  ∀ (s : State) (low : BitVec 5),
    exec (.illegalA0 low) s = .next { s with
      fault := some { cause := .unknownOpcode 0 (BitVec.ofNat 8 (0x00 + low.toNat)), index := s.icount, pc := s.pc },
      status := .haltedErr } ∧
    exec (.illegalA5 low) s = .next { s with
      fault := some { cause := .unknownOpcode 5 (BitVec.ofNat 8 (0xA0 + low.toNat)), index := s.icount, pc := s.pc },
      status := .haltedErr } ∧
    exec (.illegalA6 low) s = .next { s with
      fault := some { cause := .unknownOpcode 6 (BitVec.ofNat 8 (0xC0 + low.toNat)), index := s.icount, pc := s.pc },
      status := .haltedErr } ∧
    exec (.illegalA7 low) s = .next { s with
      fault := some { cause := .unknownOpcode 7 (BitVec.ofNat 8 (0xE0 + low.toNat)), index := s.icount, pc := s.pc },
      status := .haltedErr }

/-- R99: with a finite stack that is not over-full, StackOverflow is raised exactly by a LOAD_CONST, or by a LOAD_MEM
of a cell inside the extent, when the stack is full; never by ROL, and never with an unbounded stack. The fault and its
conditions are the spec's decision D5 (log entry 12), its precise error halt is D9 (log entry 6). -/
def Obligations.StackOverflowExactlyWhenFull : Prop :=
  ∀ (i : Instr) (s : State), i.wellFormed = true → (∀ e ∈ s.config.stackDepth, s.stack.length ≤ e) →
    (exec i s = .next { s with
        fault := some { cause := .stackOverflow, index := s.icount, pc := s.pc }, status := .haltedErr } ↔
      s.config.stackDepth = some s.stack.length ∧
        ((∃ b, i = .loadConst b) ∨ ∃ b, i = .loadMem b ∧ b < s.config.memSize))

/-- Every well-formed instruction answers a next state in every state: its effect or its error halt, never a refusal
(R9: no byte sequence is refused; R16: the signed-range check on push never fails, an inference the spec marks as its
own). The model's one refusal is the range check on a constant no encoding has (log entry 8), and no instruction ends in
the model's fault. -/
def Obligations.WellFormedInstructionsNeverStop : Prop :=
  (∀ (i : Instr) (s : State), i.wellFormed = true → ∃ t, exec i s = .next t) ∧
  (∀ (i : Instr) (s : State) (r : Refusal), exec i s = .refused r →
    ∃ b, i = .loadConst b ∧ 32767 < b ∧ r = .pushOutOfRange) ∧
  ∀ (i : Instr) (s : State) (r : Fault), exec i s ≠ .fault r

/-! ## Frames -/

/-- Frame of LOAD_CONST and LOAD_MEM: every cell, the image and the parameters are unchanged; the stack keeps all its
entries and gains at most one; the fault record is unchanged unless the run ends in an error halt (R81, R83), which
keeps stack, `pc` and `icount` (R103, the spec's decision D9, log entry 6). -/
def Obligations.LoadsLeaveMemoryAlone : Prop :=
  ∀ (i : Instr) (s t : State), ((∃ b, i = .loadConst b) ∨ ∃ b, i = .loadMem b) → exec i s = .next t →
    (∀ a : Nat, t.mem.read a = s.mem.read a) ∧ t.code = s.code ∧ t.config = s.config ∧
    (t.stack = s.stack ∨ ∃ v, t.stack = v :: s.stack) ∧
    (t.status = s.status ∧ t.fault = s.fault ∨
      t.status = .haltedErr ∧ t.stack = s.stack ∧ t.pc = s.pc ∧ t.icount = s.icount)

/-- Frame of STORE_MEM: every cell but the one at `v + offset`, `v` the top entry, is unchanged (all cells, on an empty
stack); the stack loses at most its top entry; image, parameters as before; the fault record is unchanged unless the run
ends in an error halt (R85, R32), which keeps stack, memory, `pc` and `icount` (R103, the spec's decision D9, log entry
6). That the popped entry is the base of the address is decision D7, that the sum is exact D14 (log entries 7, 9). -/
def Obligations.StoreMemChangesOneCell : Prop :=
  ∀ (off : Int) (s t : State), exec (.storeMem off) s = .next t →
    (∀ (v : Entry) (rest : List Entry), s.stack = v :: rest →
      ∀ a : Nat, (a : Int) ≠ storeAddress v off → t.mem.read a = s.mem.read a) ∧
    (s.stack = [] → ∀ a : Nat, t.mem.read a = s.mem.read a) ∧ t.code = s.code ∧ t.config = s.config ∧
    (t.status = s.status ∧ t.fault = s.fault ∧ t.stack = s.stack.tail ∨
      t.status = .haltedErr ∧ t.stack = s.stack ∧ t.mem = s.mem ∧ t.pc = s.pc ∧ t.icount = s.icount)

/-- Frame of ROL: every cell, the image and the parameters are unchanged; the entries below the top two are unchanged;
the fault record is unchanged unless the run ends in an error halt (R89, R91), which keeps stack, `pc` and `icount`
(R103, the spec's decision D9, log entry 6). That two entries are removed and one pushed is decision D7 (log entry 7). -/
def Obligations.RolLeavesMemoryAlone : Prop :=
  ∀ s t : State, exec .rol s = .next t →
    (∀ a : Nat, t.mem.read a = s.mem.read a) ∧ t.code = s.code ∧ t.config = s.config ∧
    (t.status = s.status ∧ t.fault = s.fault ∧ (∃ r, t.stack = r :: s.stack.drop 2) ∨
      t.status = .haltedErr ∧ t.stack = s.stack ∧ t.pc = s.pc ∧ t.icount = s.icount)

/-- A running instruction that does not complete changes nothing but status and fault, and the record holds `icount` and
`pc` of before (R101, R102, R103); so does a truncated one at the step. Precision is the spec's decision D9 (log entry
6). -/
def Obligations.FaultsArePrecise : Prop :=
  (∀ (i : Instr) (s t : State), s.status = .running → exec i s = .next t → t.status ≠ .running →
    ∃ c, t = { s with fault := some { cause := c, index := s.icount, pc := s.pc }, status := .haltedErr }) ∧
  (∀ s t : State, step s = .next t → t.status = .haltedErr →
    ∃ c, t = { s with fault := some { cause := c, index := s.icount, pc := s.pc }, status := .haltedErr })

/-- A completed instruction advances `pc` by its encoded size, 2, 2, 4 or 1, and `icount` by one, and leaves the fault
record alone (R74, R22; that `pc` moves at retirement is the spec's decision D9). -/
def Obligations.CompletedInstructionRetires : Prop :=
  ∀ (i : Instr) (s t : State), s.status = .running → exec i s = .next t → t.status = .running →
    ∃ n, i.size = some n ∧ t.pc = s.pc + n ∧ t.icount = s.icount + 1 ∧ t.fault = s.fault

/-- Only a STORE_MEM changes the data memory, and then it is the write of its low byte to its address: R34 and R39 over
all instructions. The mask is the spec's decision D6, the one-operand convention D7, the exact address D14 (log
entries 7, 9). -/
def Obligations.OnlyStoreMemWritesMemory : Prop :=
  ∀ s t : State, step s = .next t → t.mem ≠ s.mem →
    ∃ (off : Int) (v : Entry) (rest : List Entry) (x : Nat), decodeAt s.code s.pc = .instr (.storeMem off) ∧
      s.stack = v :: rest ∧ v.toInt + off = x ∧ x < s.config.memSize ∧
      t.mem = s.mem.write x (BitVec.ofNat 8 (v.toNat % 256))

/-- R30: no instruction and no step writes the code, and no instruction reads it as data: with another image in its
place an instruction does the same. -/
def Obligations.CodeIsReadOnly : Prop :=
  (∀ s t : State, step s = .next t → t.code = s.code) ∧
  (∀ (i : Instr) (s t : State), exec i s = .next t → t.code = s.code) ∧
  (∀ (i : Instr) (s : State) (c : List Byte),
    exec i { s with code := c } =
      match exec i s with
      | .next t => .next { t with code := c }
      | .fault r => .fault r
      | .refused r => .refused r)

/-- The parameters and the image are the same at every point of a run (R13: "no step changes them"). -/
def Obligations.ParametersNeverChange : Prop :=
  ∀ (k : Nat) (s t : State), run k s = .next t → t.config = s.config ∧ t.code = s.code

/-- An instruction that completes reads and writes only the entries at the top: with more entries below, it does the
same and leaves those in place (R14: only the top entry or the top two are reachable). With the unbounded stack. -/
def Obligations.EntriesBelowAreUnreachable : Prop :=
  ∀ (i : Instr) (s t : State) (below : List Entry), s.config.stackDepth = none → s.status = .running →
    exec i s = .next t → t.status = .running →
    exec i { s with stack := s.stack ++ below } = .next { t with stack := t.stack ++ below }

/-- No instruction reads `pc` or `icount` as an operand (R17, R22): from other values of them it gives the same stack,
memory and status. -/
def Obligations.PcAndIcountAreNoOperands : Prop :=
  ∀ (i : Instr) (s t : State) (p n : Nat), exec i s = .next t →
    ∃ u, exec i { s with pc := p, icount := n } = .next u ∧
      u.stack = t.stack ∧ u.mem = t.mem ∧ u.status = t.status ∧ u.config = t.config ∧ u.code = t.code ∧
      u.pc + s.pc = t.pc + p ∧ u.icount + s.icount = t.icount + n

/-- A store is seen by the very next instruction: a LOAD_MEM of the cell pushes the stored byte, and a ROL whose count
address is the cell rotates by it (R119, R120; the latter an inference the spec marks as its own). The byte stored and
the operands' places are the spec's decisions D6 and D7 (log entry 7). -/
def Obligations.StoreIsSeenByNextInstruction : Prop :=
  ∀ (s t : State) (off : Int) (v : Entry) (rest : List Entry) (x : Nat), s.mem.wf → s.config.stackDepth = none →
    s.status = .running → s.stack = v :: rest → v.toInt + off = x → exec (.storeMem off) s = .next t →
    t.status = .running →
    (∃ u e, exec (.loadMem x) t = .next u ∧ u.stack = e :: rest ∧ e.toInt = v.toInt % 256) ∧
    (∀ (d a : Entry) (below : List Entry), rest = d :: a :: below → a.toInt = x →
      ∃ u e, exec .rol t = .next u ∧ u.stack = e :: below ∧
        e.toInt = (rol8 (BitVec.ofInt 8 d.toInt) (v.toInt % 256).toNat).toNat)

/-! ## The step -/

/-- When the bytes at the program counter decode to an instruction, the step is that instruction, and nothing is added
around it: retirement and the error halt are in `exec` (R72, R73). -/
def Obligations.StepRunsTheDecodedInstruction : Prop :=
  ∀ (s : State) (i : Instr), s.status = .running → i.wellFormed = true →
    decodeAt s.code s.pc = .instr i → step s = exec i s

/-- R75, the normal halt: at the end of the image the step sets the status and changes nothing else, whatever the stack
holds; an empty image halts normally on the first step with `pc = 0`, `icount = 0`. -/
def Obligations.NormalHaltAtEndOfImage : Prop :=
  (∀ s : State, s.status = .running → s.pc = s.code.length → step s = .next { s with status := .haltedOk }) ∧
  (∀ (c : Config) (init : Memory), ∃ t, step (State.fresh c init []) = .next t ∧ t.status = .haltedOk ∧
    t.pc = 0 ∧ t.icount = 0 ∧ t.stack = [] ∧ t.mem = init ∧ t.fault = none)

/-- R95: the step raises TruncatedInstructionError when the class at the cursor is 1, 2 or 3 and fewer bytes remain
than it needs, with the class, the size and the bytes remaining (R102); and a step raises it only for the class of the
byte at the cursor, in that case. That nothing else changes is the spec's decision D9 (log entry 6). -/
def Obligations.TruncatedInstructionEndsTheRun : Prop :=
  (∀ (s : State) (b0 : Byte) (n : Nat), s.status = .running → s.code[s.pc]? = some b0 →
    ((b0.toNat >>> 5 = 1 ∧ n = 2) ∨ (b0.toNat >>> 5 = 2 ∧ n = 2) ∨ (b0.toNat >>> 5 = 3 ∧ n = 4)) →
    s.code.length - s.pc < n →
    step s = .next { s with
      fault := some { cause := .truncatedInstruction (BitVec.ofNat 3 (b0.toNat >>> 5)) n (s.code.length - s.pc),
                      index := s.icount, pc := s.pc },
      status := .haltedErr }) ∧
  (∀ (s t : State) (a : BitVec 3) (n r j p : Nat), s.fault = none → step s = .next t →
    t.fault = some { cause := .truncatedInstruction a n r, index := j, pc := p } →
    ∃ b0, s.code[s.pc]? = some b0 ∧ a.toNat = b0.toNat >>> 5 ∧
      ((a.toNat = 1 ∧ n = 2) ∨ (a.toNat = 2 ∧ n = 2) ∨ (a.toNat = 3 ∧ n = 4)) ∧
      r = s.code.length - s.pc ∧ s.code.length - s.pc < n)

/-- R63 and R96: a first byte whose class is 0, 5, 6 or 7 ends the run in UnknownOpcodeError, whatever its other bits
are and however many bytes follow, none included. The record shows the class and the byte (R102); that nothing else
changes is the spec's decision D9 (log entry 6). -/
def Obligations.UnknownClassEndsTheRun : Prop :=
  ∀ (s : State) (b0 : Byte), s.status = .running → s.code[s.pc]? = some b0 →
    (b0.toNat >>> 5 = 0 ∨ b0.toNat >>> 5 = 5 ∨ b0.toNat >>> 5 = 6 ∨ b0.toNat >>> 5 = 7) →
    step s = .next { s with
      fault := some { cause := .unknownOpcode (BitVec.ofNat 3 (b0.toNat >>> 5)) b0, index := s.icount, pc := s.pc },
      status := .haltedErr }

/-- R104, the priority: decoding comes before the stack is looked at (a truncated STORE_MEM on an empty stack reports
truncation), the count of entries before the address, the address before the push. The order is the spec's decision D11
(log entry 11), the precise error halt D9 (log entry 6). -/
def Obligations.FaultPriority : Prop :=
  (∀ (s : State) (b0 : Byte), s.status = .running → s.code.drop s.pc = [b0] → b0.toNat >>> 5 = 1 → s.stack = [] →
    ∃ t, step s = .next t ∧ t.fault = some { cause := .truncatedInstruction 1 2 1, index := s.icount, pc := s.pc }) ∧
  (∀ (i : Instr) (s t : State) (x : Int) (j p : Nat), s.fault = none → exec i s = .next t →
    t.fault = some { cause := .outOfBounds x, index := j, pc := p } →
    (∃ b, i = .loadMem b ∧ x = b) ∨ (∃ off, i = .storeMem off ∧ 1 ≤ s.stack.length) ∨
      (i = .rol ∧ 2 ≤ s.stack.length)) ∧
  (∀ (b : Nat) (s : State), s.config.memSize ≤ b →
    exec (.loadMem b) s = .next { s with
      fault := some { cause := .outOfBounds b, index := s.icount, pc := s.pc }, status := .haltedErr })

/-- R9: a step of a running machine has exactly one of three outcomes, a completed instruction, a normal halt, an error
halt; it is never stuck and refuses no byte sequence. -/
def Obligations.StepHasThreeOutcomes : Prop :=
  ∀ s : State, s.status = .running → ∃ t, step s = .next t ∧
    ((t.status = .running ∧ t.icount = s.icount + 1) ∨
     (t.status = .haltedOk ∧ s.code.length ≤ s.pc ∧ t.icount = s.icount) ∨
     (t.status = .haltedErr ∧ (∃ r, t.fault = some r) ∧ t.icount = s.icount))

/-- R71, the run state machine: RUNNING goes to RUNNING when the instruction at `pc` completes, to HALTED_OK exactly
when `pc = CODE_LEN`, to HALTED_ERR when a fault is raised, with no fourth case; a halted machine has no step. The shape
of the error halt is the spec's decision D9 (log entry 6); that the missing step is the model's fault `halted` is the
model's choice (log entry 13). -/
def Obligations.RunStateMachine : Prop :=
  (∀ s t : State, s.pc ≤ s.code.length → step s = .next t → s.status = .running ∧
    (t.status = .running ↔ ∃ i, decodeAt s.code s.pc = .instr i ∧ exec i s = .next t ∧
      ∃ n, i.size = some n ∧ t.pc = s.pc + n) ∧
    (t.status = .haltedOk ↔ s.pc = s.code.length) ∧
    (t.status = .haltedErr ↔ ∃ c, t = { s with
      fault := some { cause := c, index := s.icount, pc := s.pc }, status := .haltedErr })) ∧
  (∀ s : State, s.status ≠ .running → step s = .fault (.halted s.status))

/-! ## The whole machine -/

/-- R27: what reset leaves, for every choice of the parameters, image and initial data: the data image, the image whole,
an empty stack, `pc = 0`, RUNNING, `icount = 0`, no fault. That `pc` is 0 and the stack empty are the spec's decisions
D1 and D2 (log entry 4); State.reset takes the default parameters and the empty image (log entries 2 and 3). -/
def Obligations.ResetValues : Prop :=
  (∀ (c : Config) (init : Memory) (code : List Byte),
    (∀ a, (State.fresh c init code).mem.read a = init.read a) ∧ (State.fresh c init code).code = code ∧
    (State.fresh c init code).config = c ∧
    (State.fresh c init code).sp = 0 ∧ (State.fresh c init code).stack = [] ∧ (State.fresh c init code).pc = 0 ∧
    (State.fresh c init code).status = .running ∧ (State.fresh c init code).icount = 0 ∧
    (State.fresh c init code).fault = none) ∧
  State.reset.config.memSize = 65536 ∧ State.reset.config.stackDepth = none ∧ State.reset.code = [] ∧
  ∀ a, State.reset.mem.read a = 0

/-- The invariant holds at reset, for every well-formed parameter, canonical data image inside the extent, and
image. -/
def Obligations.InvariantHoldsAtReset : Prop :=
  State.reset.Inv ∧
  ∀ (c : Config) (init : Memory) (code : List Byte), c.wellFormed = true → init.wf → init.within c.memSize →
    (State.fresh c init code).Inv

/-- Every step keeps the invariant: the memory stays canonical and inside the extent (R24), every entry stays in
0..1023 (R80), `sp <= floor(pc / 2)` (R15), `pc <= CODE_LEN` (R18), `icount <= pc`, the fault record is present exactly
in an error halt and holds the retained `icount` and `pc` (R23, R102), and a halt stands where R123 says. That an error
halt keeps `icount`, `pc` and the stack is the spec's decision D9 (log entry 6). -/
def Obligations.StepKeepsInvariant : Prop :=
  ∀ s t : State, s.Inv → step s = .next t → t.Inv

/-- R79, an inference the spec marks as its own: from every running state with `pc <= CODE_LEN` the run halts within
`CODE_LEN - pc + 1` steps (`CODE_LEN + 1` from reset). -/
def Obligations.EveryRunHalts : Prop :=
  ∀ s : State, s.status = .running → s.pc ≤ s.code.length →
    ∃ k t, k ≤ s.code.length - s.pc + 1 ∧ run k s = .next t ∧ (t.status = .haltedOk ∨ t.status = .haltedErr)

/-- R41 (a), (b): after any number of steps a cell holds the value of the last STORE_MEM to it in program order, or what
it held at the start if there is none. -/
def Obligations.MemoryHoldsTheLastStore : Prop :=
  ∀ (k : Nat) (s t : State) (a : Nat), s.mem.wf → run k s = .next t →
    t.mem.read a = (lastStore a (State.stores k s)).getD (s.mem.read a)

/-- R22: `icount` is the 0-based position in the program of the instruction at `pc`: every step keeps that the
`icount`-th instruction of the image begins at `pc`. -/
def Obligations.IcountIsTheInstructionPosition : Prop :=
  ∀ s t : State, instrOffset s.code s.icount = some s.pc → step s = .next t →
    instrOffset t.code t.icount = some t.pc

/-- R123, the end of a run from reset: a normal halt has executed every instruction of the image and stands at its end
with no fault; an error halt stands at the first byte of the instruction that faulted, with a record that holds its
position and offset (that `pc` stays at the failing instruction is the spec's decision D9, log entry 6). -/
def Obligations.EndOfRun : Prop :=
  ∀ (c : Config) (init : Memory) (code : List Byte) (k : Nat) (t : State),
    c.wellFormed = true → init.wf → init.within c.memSize → run k (State.fresh c init code) = .next t →
    (t.status = .haltedOk → t.pc = code.length ∧ instrOffset code t.icount = some code.length ∧ t.fault = none) ∧
    (t.status = .haltedErr → t.pc < code.length ∧ instrOffset code t.icount = some t.pc ∧
      ∃ r, t.fault = some r ∧ r.index = t.icount ∧ r.pc = t.pc)

/-- R88: no step from a state of the invariant changes a cell above 5118, an inference the spec marks as its own. -/
def Obligations.HighCellsAreNeverWritten : Prop :=
  ∀ (s t : State) (a : Nat), s.Inv → step s = .next t → 5118 < a → t.mem.read a = s.mem.read a

/-- R88: every cell below 4096 (and inside the extent) can be given every byte value by pushing the byte `d` and storing
with offset `X - d`, an inference the spec marks as its own, which rests on its decisions D6 and D7 (log entry 7). -/
def Obligations.LowCellsCanHoldEveryByte : Prop :=
  ∀ (s : State) (x d : Nat), s.status = .running → s.mem.wf → s.config.stackDepth = none → x ≤ 4095 →
    x < s.config.memSize → d ≤ 255 →
    ∃ t u, exec (.loadConst d) s = .next t ∧ (Instr.storeMem ((x : Int) - d)).wellFormed = true ∧
      exec (.storeMem ((x : Int) - d)) t = .next u ∧ u.status = .running ∧ (u.mem.read x).toNat = d ∧
      u.stack = s.stack

/-- R93: from a state of the invariant with at least 1024 cells, ROL with two entries never leaves the extent: it
completes; an inference the spec marks as its own, which rests on its decision D7 (log entry 7). -/
def Obligations.RolCompletesInLargeMemory : Prop :=
  ∀ s : State, s.Inv → s.status = .running → 1024 ≤ s.config.memSize → 2 ≤ s.stack.length →
    ∃ t, exec .rol s = .next t ∧ t.status = .running ∧ t.sp + 1 = s.sp

/-- R126: the snapshot lists exactly the non-zero cells of the range, addresses rising, the stack bottom to top, and
the metadata; with the fault report of an error halt. -/
def Obligations.SnapshotReportsTheState : Prop :=
  ∀ (s : State) (start last : Nat), s.mem.wf →
    (∀ (a : Nat) (v : Byte), (a, v) ∈ (s.snapshot start last).cells ↔
      start ≤ a ∧ a ≤ last ∧ v ≠ 0 ∧ s.memRead a = v) ∧
    (s.snapshot start last).cells.Pairwise (fun c d => c.1 < d.1) ∧
    (∀ i : Nat, (s.snapshot start last).stack[i]? = s.entry i) ∧
    (s.snapshot start last).stack.length = s.sp ∧ (s.snapshot start last).stackSize = s.sp ∧
    (s.snapshot start last).memSize = s.config.memSize ∧ (s.snapshot start last).start = start ∧
    (s.snapshot start last).last = last ∧ (s.snapshot start last).fault = s.fault
end

