-- ==== Sys2Proof/Laws/Words.lean ====
section
/-! SUPPORT. The value of each instruction word and of each field as a number, so that claims about encodings become
arithmetic. -/

namespace Sys2Proof

/-- A concatenation as a number: the first part in the more significant position (spec/00_scope.md R7). -/
theorem toNat_append_add {n m : Nat} (x : BitVec n) (y : BitVec m) :
    (x ++ y).toNat = x.toNat * 2 ^ m + y.toNat := by
  rw [BitVec.toNat_append, ← Nat.shiftLeft_add_eq_or_of_lt y.isLt, Nat.shiftLeft_eq]

/-- A bit field as a number. -/
theorem toNat_field {n : Nat} (x : BitVec n) (lo len : Nat) :
    (x.extractLsb' lo len).toNat = x.toNat / 2 ^ lo % 2 ^ len := by
  rw [BitVec.extractLsb'_toNat, Nat.shiftRight_eq_div_pow]

theorem wordS13_toNat (u : BitVec 13) : (wordS13 u).toNat = 8192 + u.toNat := toNat_append_add _ _

theorem wordU10_toNat (b : BitVec 10) : (wordU10 b).toNat = (2048 + b.toNat) * 8 := by
  have h : (wordU10 b).toNat = (2#3 ++ b).toNat * 2 ^ 3 + 0 := toNat_append_add (2#3 ++ b) 0#3
  rw [h, toNat_append_add]
  rfl

theorem wordU24_toNat (b : BitVec 24) : (wordU24 b).toNat = (50331648 + b.toNat) * 32 := by
  have h : (wordU24 b).toNat = (3#3 ++ b).toNat * 2 ^ 5 + 0 := toNat_append_add (3#3 ++ b) 0#5
  rw [h, toNat_append_add]
  rfl

/-- The two-byte word, the byte at the lower offset more significant. -/
theorem word16_toNat (b0 b1 : Byte) : (b0 ++ b1 : BitVec 16).toNat = b0.toNat * 256 + b1.toNat :=
  toNat_append_add b0 b1

/-- The four-byte word, the byte at the lowest offset most significant. -/
theorem word32_toNat (b0 b1 b2 b3 : Byte) :
    (b0 ++ b1 ++ b2 ++ b3 : BitVec 32).toNat =
      ((b0.toNat * 256 + b1.toNat) * 256 + b2.toNat) * 256 + b3.toNat := by
  have h : (b0 ++ b1 ++ b2 ++ b3 : BitVec 32).toNat = (b0 ++ b1 ++ b2).toNat * 2 ^ 8 + b3.toNat :=
    toNat_append_add (b0 ++ b1 ++ b2) b3
  rw [h, toNat_append_add, toNat_append_add]
  rfl

/-- A shifted number or'ed with a smaller one is their sum. -/
theorem shiftLeft_or_eq_add (x y k : Nat) (h : y < 2 ^ k) : (x <<< k) ||| y = x * 2 ^ k + y := by
  rw [← Nat.shiftLeft_add_eq_or_of_lt h, Nat.shiftLeft_eq]

theorem bytesOfWord16_eq (w : BitVec 16) :
    bytesOfWord16 w = [BitVec.ofNat 8 (w.toNat / 256), BitVec.ofNat 8 (w.toNat % 256)] := by
  have h (k : Nat) : w.extractLsb' k 8 = BitVec.ofNat 8 (w.toNat / 2 ^ k) := by
    apply BitVec.eq_of_toNat_eq
    rw [toNat_field, BitVec.toNat_ofNat]
  rw [bytesOfWord16, h, h, show w.toNat / 2 ^ 0 = w.toNat from Nat.div_one _]
  congr 2
  apply BitVec.eq_of_toNat_eq
  rw [BitVec.toNat_ofNat, BitVec.toNat_ofNat]
  omega

theorem classBits_toNat (b : Byte) : (classBits b).toNat = b.toNat / 32 := by
  have := b.isLt
  rw [classBits, toNat_field]
  omega

theorem lowBits_toNat (b : Byte) : (lowBits b).toNat = b.toNat % 32 := by
  rw [lowBits, toNat_field]
  omega

theorem classByte_toNat (a : BitVec 3) (low : BitVec 5) : (classByte a low).toNat = a.toNat * 32 + low.toNat :=
  toNat_append_add a low

/-- A byte is its class and its low bits. -/
theorem classByte_classBits (b : Byte) : classByte (classBits b) (lowBits b) = b := by
  apply BitVec.eq_of_toNat_eq
  rw [classByte_toNat, classBits_toNat, lowBits_toNat]
  omega

theorem classBits_classByte (a : BitVec 3) (low : BitVec 5) : classBits (classByte a low) = a := by
  apply BitVec.eq_of_toNat_eq
  have := low.isLt
  rw [classBits_toNat, classByte_toNat]
  omega

theorem lowBits_classByte (a : BitVec 3) (low : BitVec 5) : lowBits (classByte a low) = low := by
  apply BitVec.eq_of_toNat_eq
  have := low.isLt
  rw [lowBits_toNat, classByte_toNat]
  omega

end Sys2Proof
end

