-- ==== Sys2Proof/Laws/Decode.lean ====
section
/-! SUPPORT. Everything the decoder can answer, by the class of the first byte, and the operands as numbers. -/

namespace Sys2Proof

/-! ## Operands as numbers (R52 to R54) -/

theorem operandU10_eq (b0 b1 : Byte) : operandU10 (b0 ++ b1) = (b0.toNat * 256 + b1.toNat) / 8 % 1024 := by
  rw [operandU10, toNat_field, word16_toNat]
  norm_num

theorem operandU24_eq (b0 b1 b2 b3 : Byte) :
    operandU24 (b0 ++ b1 ++ b2 ++ b3) =
      (((b0.toNat * 256 + b1.toNat) * 256 + b2.toNat) * 256 + b3.toNat) / 32 % 16777216 := by
  rw [operandU24, toNat_field, word32_toNat]
  norm_num

theorem operandS13_eq (b0 b1 : Byte) (u : Nat) (h : u = (b0.toNat * 256 + b1.toNat) % 8192) :
    operandS13 (b0 ++ b1) = if u < 4096 then (u : Int) else (u : Int) - 8192 := by
  rw [operandS13, BitVec.toInt_eq_toNat_cond, toNat_field, word16_toNat]
  simp only [Nat.pow_zero, Nat.div_one]
  split <;> split <;> omega

/-! ## The decoder by class -/

/-- The class from the first byte's value. -/
theorem ofBits_classBits {b0 : Byte} {n : Nat} (h : b0.toNat / 32 = n) :
    OpClass.ofBits (classBits b0) = OpClass.ofBits (BitVec.ofNat 3 n) := by
  congr 1
  apply BitVec.eq_of_toNat_eq
  have := b0.isLt
  rw [classBits_toNat, h, BitVec.toNat_ofNat]
  omega

theorem decode_storeMem {b0 : Byte} (h : b0.toNat / 32 = 1) (rest : List Byte) :
    decode (b0 :: rest) = decodeStoreMem b0 rest := by
  simp only [decode, ofBits_classBits h]
  rfl

theorem decode_loadConst {b0 : Byte} (h : b0.toNat / 32 = 2) (rest : List Byte) :
    decode (b0 :: rest) = decodeLoadConst b0 rest := by
  simp only [decode, ofBits_classBits h]
  rfl

theorem decode_loadMem {b0 : Byte} (h : b0.toNat / 32 = 3) (rest : List Byte) :
    decode (b0 :: rest) = decodeLoadMem b0 rest := by
  simp only [decode, ofBits_classBits h]
  rfl

theorem decode_rol {b0 : Byte} (h : b0.toNat / 32 = 4) (rest : List Byte) : decode (b0 :: rest) = .instr .rol := by
  simp only [decode, ofBits_classBits h]
  rfl

theorem decode_illegalA0 {b0 : Byte} (h : b0.toNat / 32 = 0) (rest : List Byte) :
    decode (b0 :: rest) = .instr (.illegalA0 (lowBits b0)) := by
  simp only [decode, ofBits_classBits h]
  rfl

theorem decode_illegalA5 {b0 : Byte} (h : b0.toNat / 32 = 5) (rest : List Byte) :
    decode (b0 :: rest) = .instr (.illegalA5 (lowBits b0)) := by
  simp only [decode, ofBits_classBits h]
  rfl

theorem decode_illegalA6 {b0 : Byte} (h : b0.toNat / 32 = 6) (rest : List Byte) :
    decode (b0 :: rest) = .instr (.illegalA6 (lowBits b0)) := by
  simp only [decode, ofBits_classBits h]
  rfl

theorem decode_illegalA7 {b0 : Byte} (h : b0.toNat / 32 = 7) (rest : List Byte) :
    decode (b0 :: rest) = .instr (.illegalA7 (lowBits b0)) := by
  simp only [decode, ofBits_classBits h]
  rfl

/-- A byte has one of the eight classes. -/
theorem class_cases (b0 : Byte) :
    b0.toNat / 32 = 0 ∨ b0.toNat / 32 = 1 ∨ b0.toNat / 32 = 2 ∨ b0.toNat / 32 = 3 ∨ b0.toNat / 32 = 4 ∨
      b0.toNat / 32 = 5 ∨ b0.toNat / 32 = 6 ∨ b0.toNat / 32 = 7 := by
  have := b0.isLt
  omega

/-- Bytes that decode to an instruction: which bytes they are, by instruction. -/
theorem decode_instr {bs : List Byte} {i : Instr} (h : decode bs = .instr i) :
    ∃ b0 rest, bs = b0 :: rest ∧
      ((b0.toNat / 32 = 1 ∧ ∃ b1 r, rest = b1 :: r ∧ i = .storeMem (operandS13 (b0 ++ b1))) ∨
       (b0.toNat / 32 = 2 ∧ ∃ b1 r, rest = b1 :: r ∧ i = .loadConst (operandU10 (b0 ++ b1))) ∨
       (b0.toNat / 32 = 3 ∧ ∃ b1 b2 b3 r, rest = b1 :: b2 :: b3 :: r ∧
          i = .loadMem (operandU24 (b0 ++ b1 ++ b2 ++ b3))) ∨
       (b0.toNat / 32 = 4 ∧ i = .rol) ∨
       (b0.toNat / 32 = 0 ∧ i = .illegalA0 (lowBits b0)) ∨
       (b0.toNat / 32 = 5 ∧ i = .illegalA5 (lowBits b0)) ∨
       (b0.toNat / 32 = 6 ∧ i = .illegalA6 (lowBits b0)) ∨
       (b0.toNat / 32 = 7 ∧ i = .illegalA7 (lowBits b0))) := by
  match bs with
  | [] => simp [decode] at h
  | b0 :: rest =>
    refine ⟨b0, rest, rfl, ?_⟩
    rcases class_cases b0 with c | c | c | c | c | c | c | c <;> rw [c]
    · rw [decode_illegalA0 c, Decoded.instr.injEq] at h
      simp [h]
    · rw [decode_storeMem c] at h
      match rest with
      | [] => simp [decodeStoreMem] at h
      | b1 :: r => exact .inl ⟨rfl, b1, r, rfl, (Decoded.instr.inj h).symm⟩
    · rw [decode_loadConst c] at h
      match rest with
      | [] => simp [decodeLoadConst] at h
      | b1 :: r => exact .inr (.inl ⟨rfl, b1, r, rfl, (Decoded.instr.inj h).symm⟩)
    · rw [decode_loadMem c] at h
      match rest with
      | [] => simp [decodeLoadMem] at h
      | [_] => simp [decodeLoadMem] at h
      | [_, _] => simp [decodeLoadMem] at h
      | b1 :: b2 :: b3 :: r => exact .inr (.inr (.inl ⟨rfl, b1, b2, b3, r, rfl, (Decoded.instr.inj h).symm⟩))
    · rw [decode_rol c, Decoded.instr.injEq] at h
      simp [h]
    · rw [decode_illegalA5 c, Decoded.instr.injEq] at h
      simp [h]
    · rw [decode_illegalA6 c, Decoded.instr.injEq] at h
      simp [h]
    · rw [decode_illegalA7 c, Decoded.instr.injEq] at h
      simp [h]

/-- The decoder answers no instruction only when no byte is left. -/
theorem decode_endOfImage {bs : List Byte} : decode bs = .endOfImage ↔ bs = [] := by
  refine ⟨fun h => ?_, fun h => by rw [h]; rfl⟩
  match bs with
  | [] => rfl
  | b0 :: rest =>
    rcases class_cases b0 with c | c | c | c | c | c | c | c
    · rw [decode_illegalA0 c] at h; nomatch h
    · rw [decode_storeMem c] at h
      match rest with
      | [] => nomatch h
      | _ :: _ => nomatch h
    · rw [decode_loadConst c] at h
      match rest with
      | [] => nomatch h
      | _ :: _ => nomatch h
    · rw [decode_loadMem c] at h
      match rest with
      | [] => nomatch h
      | [_] => nomatch h
      | [_, _] => nomatch h
      | _ :: _ :: _ :: _ => nomatch h
    · rw [decode_rol c] at h; nomatch h
    · rw [decode_illegalA5 c] at h; nomatch h
    · rw [decode_illegalA6 c] at h; nomatch h
    · rw [decode_illegalA7 c] at h; nomatch h

/-- A decoded instruction's operand is one the encoding can hold. -/
theorem decoded_operand_ranges (b0 b1 b2 b3 : Byte) :
    (-4096 ≤ operandS13 (b0 ++ b1) ∧ operandS13 (b0 ++ b1) ≤ 4095) ∧ operandU10 (b0 ++ b1) < 1024 ∧
      operandU24 (b0 ++ b1 ++ b2 ++ b3) < 16777216 := by
  rw [operandS13_eq b0 b1 _ rfl, operandU10_eq, operandU24_eq]
  refine ⟨?_, by omega, by omega⟩
  split <;> omega

end Sys2Proof
end

