-- ==== Sys2Proof/Laws/State.lean ====
section
/-! SUPPORT. What each state update does to each field: one lemma per field per update, so that no later proof unfolds
a record update. -/

namespace Sys2Proof.Machine

/-! ## State.memWrite -/

@[simp] theorem State.memWrite_config (s : State) (a : Nat) (v : Byte) : (s.memWrite a v).config = s.config := rfl
@[simp] theorem State.memWrite_code (s : State) (a : Nat) (v : Byte) : (s.memWrite a v).code = s.code := rfl
@[simp] theorem State.memWrite_mem (s : State) (a : Nat) (v : Byte) : (s.memWrite a v).mem = s.mem.write a v := rfl
@[simp] theorem State.memWrite_stack (s : State) (a : Nat) (v : Byte) : (s.memWrite a v).stack = s.stack := rfl
@[simp] theorem State.memWrite_pc (s : State) (a : Nat) (v : Byte) : (s.memWrite a v).pc = s.pc := rfl
@[simp] theorem State.memWrite_status (s : State) (a : Nat) (v : Byte) : (s.memWrite a v).status = s.status := rfl
@[simp] theorem State.memWrite_icount (s : State) (a : Nat) (v : Byte) : (s.memWrite a v).icount = s.icount := rfl
@[simp] theorem State.memWrite_fault (s : State) (a : Nat) (v : Byte) : (s.memWrite a v).fault = s.fault := rfl

/-! ## State.withStack -/

@[simp] theorem State.withStack_config (s : State) (l : List Entry) : (s.withStack l).config = s.config := rfl
@[simp] theorem State.withStack_code (s : State) (l : List Entry) : (s.withStack l).code = s.code := rfl
@[simp] theorem State.withStack_mem (s : State) (l : List Entry) : (s.withStack l).mem = s.mem := rfl
@[simp] theorem State.withStack_stack (s : State) (l : List Entry) : (s.withStack l).stack = l := rfl
@[simp] theorem State.withStack_pc (s : State) (l : List Entry) : (s.withStack l).pc = s.pc := rfl
@[simp] theorem State.withStack_status (s : State) (l : List Entry) : (s.withStack l).status = s.status := rfl
@[simp] theorem State.withStack_icount (s : State) (l : List Entry) : (s.withStack l).icount = s.icount := rfl
@[simp] theorem State.withStack_fault (s : State) (l : List Entry) : (s.withStack l).fault = s.fault := rfl
@[simp] theorem State.withStack_withStack (s : State) (l l' : List Entry) :
    (s.withStack l).withStack l' = s.withStack l' := rfl
@[simp] theorem State.withStack_sp (s : State) (l : List Entry) : (s.withStack l).sp = l.length := rfl

/-! ## State.retire -/

@[simp] theorem State.retire_config (s : State) (n : Nat) : (s.retire n).config = s.config := rfl
@[simp] theorem State.retire_code (s : State) (n : Nat) : (s.retire n).code = s.code := rfl
@[simp] theorem State.retire_mem (s : State) (n : Nat) : (s.retire n).mem = s.mem := rfl
@[simp] theorem State.retire_stack (s : State) (n : Nat) : (s.retire n).stack = s.stack := rfl
@[simp] theorem State.retire_pc (s : State) (n : Nat) : (s.retire n).pc = s.pc + n := rfl
@[simp] theorem State.retire_status (s : State) (n : Nat) : (s.retire n).status = s.status := rfl
@[simp] theorem State.retire_icount (s : State) (n : Nat) : (s.retire n).icount = s.icount + 1 := rfl
@[simp] theorem State.retire_fault (s : State) (n : Nat) : (s.retire n).fault = s.fault := rfl

/-! ## State.haltNormally -/

@[simp] theorem State.haltNormally_config (s : State) : s.haltNormally.config = s.config := rfl
@[simp] theorem State.haltNormally_code (s : State) : s.haltNormally.code = s.code := rfl
@[simp] theorem State.haltNormally_mem (s : State) : s.haltNormally.mem = s.mem := rfl
@[simp] theorem State.haltNormally_stack (s : State) : s.haltNormally.stack = s.stack := rfl
@[simp] theorem State.haltNormally_pc (s : State) : s.haltNormally.pc = s.pc := rfl
@[simp] theorem State.haltNormally_status (s : State) : s.haltNormally.status = .haltedOk := rfl
@[simp] theorem State.haltNormally_icount (s : State) : s.haltNormally.icount = s.icount := rfl
@[simp] theorem State.haltNormally_fault (s : State) : s.haltNormally.fault = s.fault := rfl

/-! ## State.raise -/

@[simp] theorem State.raise_config (s : State) (c : Cause) : (s.raise c).config = s.config := rfl
@[simp] theorem State.raise_code (s : State) (c : Cause) : (s.raise c).code = s.code := rfl
@[simp] theorem State.raise_mem (s : State) (c : Cause) : (s.raise c).mem = s.mem := rfl
@[simp] theorem State.raise_stack (s : State) (c : Cause) : (s.raise c).stack = s.stack := rfl
@[simp] theorem State.raise_pc (s : State) (c : Cause) : (s.raise c).pc = s.pc := rfl
@[simp] theorem State.raise_status (s : State) (c : Cause) : (s.raise c).status = .haltedErr := rfl
@[simp] theorem State.raise_icount (s : State) (c : Cause) : (s.raise c).icount = s.icount := rfl
@[simp] theorem State.raise_fault (s : State) (c : Cause) :
    (s.raise c).fault = some { cause := c, index := s.icount, pc := s.pc } := rfl

end Sys2Proof.Machine
end

