-- ==== Sys2Proof/Laws/Ops.lean ====
section
/-! SUPPORT. One lemma per shared operation that says everything it can do; proofs cite these and do not unfold the
operation. -/

namespace Sys2Proof.Machine

/-! ## State.conclude -/

@[simp] theorem State.conclude_ok (s t : State) (n : Nat) : s.conclude n (.ok t) = .next (t.retire n) := rfl
@[simp] theorem State.conclude_raise (s : State) (n : Nat) (c : Cause) :
    s.conclude n (.error (.raise c)) = .next (s.raise c) := rfl
@[simp] theorem State.conclude_refuse (s : State) (n : Nat) (r : Refusal) :
    s.conclude n (.error (.refuse r)) = .refused r := rfl

/-- An instruction that answers a next state completed and retired, or raised a fault in the state before it. -/
theorem State.conclude_next {s t : State} {n : Nat} {r : Except Stop State} (h : s.conclude n r = .next t) :
    (∃ u, r = .ok u ∧ t = u.retire n) ∨ (∃ c, r = .error (.raise c) ∧ t = s.raise c) := by
  match r with
  | .ok u => exact .inl ⟨u, rfl, by simpa using h.symm⟩
  | .error (.raise c) => exact .inr ⟨c, rfl, by simpa using h.symm⟩
  | .error (.refuse _) => simp at h

/-! ## State.push -/

/-- A push of a value in range completes, unless a finite stack is full. -/
theorem State.push_ok (s : State) (v : Int) (h : -32768 ≤ v ∧ v ≤ 32767) (hd : s.config.stackDepth ≠ some s.sp) :
    s.push v = .ok (s.withStack (BitVec.ofInt 16 v :: s.stack)) := by
  simp [State.push, h, hd]

/-- A push on a full stack raises StackOverflow. -/
theorem State.push_full (s : State) (v : Int) (h : -32768 ≤ v ∧ v ≤ 32767) (hd : s.config.stackDepth = some s.sp) :
    s.push v = .error (.raise .stackOverflow) := by
  simp [State.push, h, hd]

/-- Everything a push can do. -/
theorem State.push_cases (s : State) (v : Int) :
    (-32768 ≤ v ∧ v ≤ 32767 ∧ s.config.stackDepth ≠ some s.sp ∧
      s.push v = .ok (s.withStack (BitVec.ofInt 16 v :: s.stack))) ∨
    (-32768 ≤ v ∧ v ≤ 32767 ∧ s.config.stackDepth = some s.sp ∧ s.push v = .error (.raise .stackOverflow)) ∨
    ((v < -32768 ∨ 32767 < v) ∧ s.push v = .error (.refuse .pushOutOfRange)) := by
  by_cases h : -32768 ≤ v ∧ v ≤ 32767
  · by_cases hd : s.config.stackDepth = some s.sp
    · exact .inr (.inl ⟨h.1, h.2, hd, s.push_full v h hd⟩)
    · exact .inl ⟨h.1, h.2, hd, s.push_ok v h hd⟩
  · exact .inr (.inr ⟨by omega, by simp [State.push, h]⟩)

/-- The entry pushed for a value in range stands for that value. -/
theorem toInt_ofInt_entry (v : Int) (h : -32768 ≤ v ∧ v ≤ 32767) : (BitVec.ofInt 16 v).toInt = v := by
  rw [BitVec.toInt_ofInt, Int.bmod_eq_of_le (by omega) (by omega)]

/-- A byte pushed is in range, zero-extended. -/
theorem byte_range (b : Byte) : -32768 ≤ (b.toNat : Int) ∧ (b.toNat : Int) ≤ 32767 := by
  have := b.isLt
  omega

/-! ## Operand forms -/

theorem State.popOne_cons {s : State} {v : Entry} {rest : List Entry} (h : s.stack = v :: rest) :
    s.popOne = .ok (v, s.withStack rest) := by
  simp [State.popOne, h]

theorem State.popOne_nil {s : State} (h : s.stack = []) : s.popOne = .error (.raise (.stackUnderflow 1 0)) := by
  simp [State.popOne, State.sp, h]

theorem State.popTwo_cons {s : State} {v a : Entry} {rest : List Entry} (h : s.stack = v :: a :: rest) :
    s.popTwo = .ok (v, a, s.withStack rest) := by
  simp [State.popTwo, h]

theorem State.popTwo_short {s : State} (h : s.sp < 2) : s.popTwo = .error (.raise (.stackUnderflow 2 s.sp)) := by
  unfold State.popTwo
  split
  · next hs => simp [State.sp, hs] at h
  · rfl
  · rfl

theorem State.cellAddress_in {s : State} {a : Int} (h : s.inExtent a) : s.cellAddress a = .ok a.toNat := by
  rw [State.cellAddress, if_pos h]

theorem State.cellAddress_out {s : State} {a : Int} (h : ¬ s.inExtent a) :
    s.cellAddress a = .error (.raise (.outOfBounds a)) := by
  rw [State.cellAddress, if_neg h]

/-- The low byte of an entry is its value modulo 256. -/
theorem lowByte_toNat (v : Entry) : (lowByte v).toNat = v.toNat % 256 := by
  simp [lowByte, BitVec.extractLsb'_toNat]

/-- The low byte of an entry is its signed value modulo 256 (spec/00_scope.md R7: `v & 0xFF` on a negative `v`). -/
theorem lowByte_toInt (v : Entry) : ((lowByte v).toNat : Int) = v.toInt % 256 := by
  rw [lowByte_toNat, BitVec.toInt_eq_toNat_cond]
  have := v.isLt
  split <;> omega

end Sys2Proof.Machine
end

