-- ==== Sys2Proof/Laws/Exec.lean ====
section
/-! SUPPORT. Everything each meaning can do, once per instruction, as a case list; and everything a step can do. -/

namespace Sys2Proof.Machine

/-- LOAD_CONST pushes and retires, or raises StackOverflow, or is refused for an operand no encoding has. -/
theorem execLoadConst_cases (b : Nat) (s : State) :
    (b ≤ 32767 ∧ s.config.stackDepth ≠ some s.sp ∧
      execLoadConst b s = .next ((s.withStack (BitVec.ofInt 16 b :: s.stack)).retire 2)) ∨
    (b ≤ 32767 ∧ s.config.stackDepth = some s.sp ∧ execLoadConst b s = .next (s.raise .stackOverflow)) ∨
    (32767 < b ∧ execLoadConst b s = .refused .pushOutOfRange) := by
  unfold execLoadConst
  rcases s.push_cases b with ⟨-, h, hd, e⟩ | ⟨-, h, hd, e⟩ | ⟨h, e⟩
  · exact .inl ⟨by omega, hd, by rw [e, State.conclude_ok]⟩
  · exact .inr (.inl ⟨by omega, hd, by rw [e, State.conclude_raise]⟩)
  · exact .inr (.inr ⟨by omega, by rw [e, State.conclude_refuse]⟩)

/-- LOAD_MEM pushes the cell and retires, or raises OutOfBoundsError, or then StackOverflow. -/
theorem execLoadMem_cases (b : Nat) (s : State) :
    (b < s.config.memSize ∧ s.config.stackDepth ≠ some s.sp ∧
      execLoadMem b s = .next ((s.withStack (BitVec.ofInt 16 (s.mem.read b).toNat :: s.stack)).retire 4)) ∨
    (b < s.config.memSize ∧ s.config.stackDepth = some s.sp ∧ execLoadMem b s = .next (s.raise .stackOverflow)) ∨
    (s.config.memSize ≤ b ∧ execLoadMem b s = .next (s.raise (.outOfBounds b))) := by
  unfold execLoadMem
  by_cases h : b < s.config.memSize
  · rw [State.cellAddress_in (a := (b : Int)) ⟨by omega, by omega⟩]
    by_cases hd : s.config.stackDepth = some s.sp
    · refine .inr (.inl ⟨h, hd, ?_⟩)
      simp [bind, Except.bind, State.push_full _ _ (byte_range _) hd]
    · refine .inl ⟨h, hd, ?_⟩
      simp [bind, Except.bind, State.push_ok _ _ (byte_range _) hd, State.memRead]
  · rw [State.cellAddress_out (a := (b : Int)) (fun h' => by omega)]
    exact .inr (.inr ⟨by omega, rfl⟩)

/-- STORE_MEM stores and retires, or raises StackUnderflowError, or OutOfBoundsError. -/
theorem execStoreMem_cases (off : Int) (s : State) :
    (∃ v rest, s.stack = v :: rest ∧ s.inExtent (storeAddress v off) ∧
      execStoreMem off s =
        .next (((s.withStack rest).memWrite (storeAddress v off).toNat (lowByte v)).retire 2)) ∨
    (∃ v rest, s.stack = v :: rest ∧ ¬ s.inExtent (storeAddress v off) ∧
      execStoreMem off s = .next (s.raise (.outOfBounds (storeAddress v off)))) ∨
    (s.stack = [] ∧ execStoreMem off s = .next (s.raise (.stackUnderflow 1 0))) := by
  unfold execStoreMem
  match hs : s.stack with
  | [] => rw [State.popOne_nil hs]; exact .inr (.inr ⟨rfl, rfl⟩)
  | v :: rest =>
    rw [State.popOne_cons hs]
    by_cases h : s.inExtent (storeAddress v off)
    · refine .inl ⟨v, rest, rfl, h, ?_⟩
      simp [bind, Except.bind, pure, Except.pure, State.cellAddress_in h]
    · refine .inr (.inl ⟨v, rest, rfl, h, ?_⟩)
      simp [bind, Except.bind, State.cellAddress_out h]

/-- ROL replaces the top two entries and retires, or raises StackUnderflowError, or OutOfBoundsError; with an
over-full finite stack, which no run reaches, StackOverflow. -/
theorem execRol_cases (s : State) :
    (∃ v a rest, s.stack = v :: a :: rest ∧ s.inExtent a.toInt ∧ s.config.stackDepth ≠ some rest.length ∧
      execRol s = .next ((s.withStack
        (BitVec.ofInt 16 (rol8 (lowByte v) (s.mem.read a.toInt.toNat).toNat).toNat :: rest)).retire 1)) ∨
    (∃ v a rest, s.stack = v :: a :: rest ∧ s.inExtent a.toInt ∧ s.config.stackDepth = some rest.length ∧
      execRol s = .next (s.raise .stackOverflow)) ∨
    (∃ v a rest, s.stack = v :: a :: rest ∧ ¬ s.inExtent a.toInt ∧
      execRol s = .next (s.raise (.outOfBounds a.toInt))) ∨
    (s.sp < 2 ∧ execRol s = .next (s.raise (.stackUnderflow 2 s.sp))) := by
  unfold execRol
  by_cases h2 : s.sp < 2
  · rw [State.popTwo_short h2]
    exact .inr (.inr (.inr ⟨h2, rfl⟩))
  · match hs : s.stack with
    | [] => simp [State.sp, hs] at h2
    | [_] => simp [State.sp, hs] at h2
    | v :: a :: rest =>
      rw [State.popTwo_cons hs]
      by_cases h : s.inExtent a.toInt
      · by_cases hd : s.config.stackDepth = some rest.length
        · refine .inr (.inl ⟨v, a, rest, rfl, h, hd, ?_⟩)
          simp [bind, Except.bind, State.cellAddress_in h, State.memRead,
            State.push_full (s.withStack rest) _ (byte_range _) hd]
        · refine .inl ⟨v, a, rest, rfl, h, hd, ?_⟩
          simp [bind, Except.bind, State.cellAddress_in h, State.memRead,
            State.push_ok (s.withStack rest) _ (byte_range _) hd]
      · refine .inr (.inr (.inl ⟨v, a, rest, rfl, h, ?_⟩))
        simp [bind, Except.bind, State.cellAddress_out h]

/-- Everything an instruction that answers a next state can do to the bookkeeping: it completes and retires its size,
or it raises a fault in the state before it. What it does to stack and memory is in the lemmas above. -/
theorem exec_next {i : Instr} {s t : State} (h : exec i s = .next t) :
    (∃ (u : State) (n : Nat), i.size = some n ∧ 1 ≤ n ∧ t = u.retire n ∧ u.config = s.config ∧ u.code = s.code ∧
      u.pc = s.pc ∧ u.status = s.status ∧ u.icount = s.icount ∧ u.fault = s.fault) ∨
    ∃ c, t = s.raise c := by
  cases i with
  | storeMem off =>
    rcases execStoreMem_cases off s with ⟨_, _, _, _, e⟩ | ⟨_, _, _, _, e⟩ | ⟨_, e⟩ <;>
      (simp only [exec, e, Host.Outcome.next.injEq] at h; subst h)
    · exact .inl ⟨_, 2, rfl, by omega, rfl, rfl, rfl, rfl, rfl, rfl, rfl⟩
    · exact .inr ⟨_, rfl⟩
    · exact .inr ⟨_, rfl⟩
  | loadConst b =>
    rcases execLoadConst_cases b s with ⟨_, _, e⟩ | ⟨_, _, e⟩ | ⟨_, e⟩ <;>
      simp only [exec, e, Host.Outcome.next.injEq, reduceCtorEq] at h <;> subst h
    · exact .inl ⟨_, 2, rfl, by omega, rfl, rfl, rfl, rfl, rfl, rfl, rfl⟩
    · exact .inr ⟨_, rfl⟩
  | loadMem b =>
    rcases execLoadMem_cases b s with ⟨_, _, e⟩ | ⟨_, _, e⟩ | ⟨_, e⟩ <;>
      (simp only [exec, e, Host.Outcome.next.injEq] at h; subst h)
    · exact .inl ⟨_, 4, rfl, by omega, rfl, rfl, rfl, rfl, rfl, rfl, rfl⟩
    · exact .inr ⟨_, rfl⟩
    · exact .inr ⟨_, rfl⟩
  | rol =>
    rcases execRol_cases s with ⟨_, _, _, _, _, _, e⟩ | ⟨_, _, _, _, _, _, e⟩ | ⟨_, _, _, _, _, e⟩ | ⟨_, e⟩ <;>
      (simp only [exec, e, Host.Outcome.next.injEq] at h; subst h)
    · exact .inl ⟨_, 1, rfl, by omega, rfl, rfl, rfl, rfl, rfl, rfl, rfl⟩
    · exact .inr ⟨_, rfl⟩
    · exact .inr ⟨_, rfl⟩
    · exact .inr ⟨_, rfl⟩
  | illegalA0 low => exact .inr ⟨_, (Host.Outcome.next.inj h).symm⟩
  | illegalA5 low => exact .inr ⟨_, (Host.Outcome.next.inj h).symm⟩
  | illegalA6 low => exact .inr ⟨_, (Host.Outcome.next.inj h).symm⟩
  | illegalA7 low => exact .inr ⟨_, (Host.Outcome.next.inj h).symm⟩

/-- What an instruction can do to the data memory: nothing, unless it is a STORE_MEM that completes. -/
theorem exec_mem {i : Instr} {s t : State} (h : exec i s = .next t) :
    t.mem = s.mem ∨
    ∃ off v rest, i = .storeMem off ∧ s.stack = v :: rest ∧ s.inExtent (storeAddress v off) ∧
      t = ((s.withStack rest).memWrite (storeAddress v off).toNat (lowByte v)).retire 2 := by
  cases i with
  | storeMem off =>
    rcases execStoreMem_cases off s with ⟨v, rest, hs, hi, e⟩ | ⟨_, _, _, _, e⟩ | ⟨_, e⟩ <;>
      (simp only [exec, e, Host.Outcome.next.injEq] at h; subst h)
    · exact .inr ⟨off, v, rest, rfl, hs, hi, rfl⟩
    · exact .inl rfl
    · exact .inl rfl
  | loadConst b =>
    rcases execLoadConst_cases b s with ⟨_, _, e⟩ | ⟨_, _, e⟩ | ⟨_, e⟩ <;>
      simp only [exec, e, Host.Outcome.next.injEq, reduceCtorEq] at h <;> subst h <;> exact .inl rfl
  | loadMem b =>
    rcases execLoadMem_cases b s with ⟨_, _, e⟩ | ⟨_, _, e⟩ | ⟨_, e⟩ <;>
      (simp only [exec, e, Host.Outcome.next.injEq] at h; subst h; exact .inl rfl)
  | rol =>
    rcases execRol_cases s with ⟨_, _, _, _, _, _, e⟩ | ⟨_, _, _, _, _, _, e⟩ | ⟨_, _, _, _, _, e⟩ | ⟨_, e⟩ <;>
      (simp only [exec, e, Host.Outcome.next.injEq] at h; subst h; exact .inl rfl)
  | illegalA0 low => exact .inl (congrArg State.mem (Host.Outcome.next.inj h)).symm
  | illegalA5 low => exact .inl (congrArg State.mem (Host.Outcome.next.inj h)).symm
  | illegalA6 low => exact .inl (congrArg State.mem (Host.Outcome.next.inj h)).symm
  | illegalA7 low => exact .inl (congrArg State.mem (Host.Outcome.next.inj h)).symm

/-- Everything a step can do, by the status and what the decoder answers. -/
theorem step_next {s t : State} (h : step s = .next t) :
    s.status = .running ∧
    ((s.fetch = .endOfImage ∧ t = s.haltNormally) ∨
     (∃ a n r, s.fetch = .truncated a n r ∧ t = s.raise (.truncatedInstruction a n r)) ∨
     (∃ i, s.fetch = .instr i ∧ exec i s = .next t)) := by
  unfold step at h
  split at h
  next hs =>
    refine ⟨hs, ?_⟩
    split at h
    next hf => exact .inl ⟨hf, by simpa using h.symm⟩
    next a n r hf => exact .inr (.inl ⟨a, n, r, hf, by simpa using h.symm⟩)
    next i hf => exact .inr (.inr ⟨i, hf, h⟩)
  next => simp at h
  next => simp at h

end Sys2Proof.Machine
end

