-- ==== Sys2Proof/Laws/Memory.lean ====
section
/-! SUPPORT. The laws of the data memory: a read after a write, and that a write keeps the canonical form and the
extent. -/

namespace Sys2Proof.Machine

@[simp] theorem Memory.read_nil (a : Nat) : Memory.read [] a = Memory.unlisted := rfl

@[simp] theorem Memory.read_cons (b : Nat) (w : Byte) (m : Memory) (a : Nat) :
    Memory.read ((b, w) :: m) a = if b = a then w else Memory.read m a := rfl

/-- An address below every listed one is not listed. -/
theorem Memory.read_below (m : Memory) (a : Nat) (h : ∀ c ∈ m, a < c.1) : m.read a = Memory.unlisted := by
  induction m with
  | nil => rfl
  | cons c m ih =>
    obtain ⟨b, w⟩ := c
    have hb : a < b := h (b, w) (by simp)
    rw [Memory.read_cons, if_neg (by omega)]
    exact ih (fun c hc => h c (by simp [hc]))

/-- In canonical form the listed cells are exactly the cells that differ from an unlisted one. -/
theorem Memory.mem_iff_read (m : Memory) (h : m.wf) (a : Nat) (v : Byte) :
    (a, v) ∈ m ↔ v ≠ Memory.unlisted ∧ m.read a = v := by
  induction m with
  | nil => simp only [List.not_mem_nil, false_iff, not_and, Memory.read_nil]; exact fun hv he => hv he.symm
  | cons c m ih =>
    obtain ⟨b, w⟩ := c
    obtain ⟨hs, hz⟩ := h
    obtain ⟨hlt, hs⟩ := List.pairwise_cons.1 hs
    have hw : w ≠ Memory.unlisted := hz (b, w) (by simp)
    have ih := ih ⟨hs, fun c hc => hz c (by simp [hc])⟩
    rw [Memory.read_cons, List.mem_cons, ih, Prod.mk.injEq]
    by_cases hba : b = a
    · subst hba
      have := Memory.read_below m b hlt
      simp only [true_and, if_true, this]
      constructor
      · rintro (rfl | ⟨h1, h2⟩)
        · exact ⟨hw, rfl⟩
        · exact absurd h2.symm h1
      · rintro ⟨-, rfl⟩; exact .inl rfl
    · simp [hba, Ne.symm hba]

theorem Memory.read_consCell (a : Nat) (v : Byte) (m : Memory) (h : ∀ c ∈ m, a < c.1) (b : Nat) :
    (Memory.consCell a v m).read b = if a = b then v else m.read b := by
  unfold Memory.consCell
  split
  next hv =>
    split
    next hab => subst hab; rw [hv]; exact Memory.read_below m a h
    next => rfl
  next => rfl

/-- Reading after a write: the written cell holds the value, every other cell is as before. -/
theorem Memory.read_write (m : Memory) (h : m.wf) (a : Nat) (v : Byte) (b : Nat) :
    (m.write a v).read b = if a = b then v else m.read b := by
  induction m with
  | nil => exact Memory.read_consCell a v [] (by simp) b
  | cons c m ih =>
    obtain ⟨d, w⟩ := c
    obtain ⟨hs, hz⟩ := h
    obtain ⟨hlt, hs⟩ := List.pairwise_cons.1 hs
    have ih := ih ⟨hs, fun c hc => hz c (by simp [hc])⟩
    unfold Memory.write
    split
    next had =>
      refine Memory.read_consCell a v _ ?_ b
      intro c hc
      rcases List.mem_cons.1 hc with rfl | hc
      · exact had
      · exact Nat.lt_trans had (hlt c hc)
    next =>
      split
      next hda =>
        subst hda
        rw [Memory.read_consCell a v m hlt, Memory.read_cons]
        split <;> rfl
      next hda =>
        rw [Memory.read_cons, Memory.read_cons, ih]
        split
        next hdb => rw [if_neg (by omega)]
        next => rfl

/-- A write leaves every other cell alone, in canonical form or not. -/
theorem Memory.read_write_other (m : Memory) {a b : Nat} (v : Byte) (h : a ≠ b) : (m.write a v).read b = m.read b := by
  have hc : ∀ m : Memory, (Memory.consCell a v m).read b = m.read b := by
    intro m
    unfold Memory.consCell
    split
    · rfl
    · rw [Memory.read_cons, if_neg h]
  induction m with
  | nil => exact hc []
  | cons c m ih =>
    obtain ⟨d, w⟩ := c
    unfold Memory.write
    split
    · exact hc _
    · split
      next had => rw [hc, Memory.read_cons, if_neg (had ▸ h)]
      next => rw [Memory.read_cons, Memory.read_cons, ih]

theorem Memory.mem_consCell {a : Nat} {v : Byte} {m : Memory} {c : Host.Cell} (h : c ∈ Memory.consCell a v m) :
    (c = (a, v) ∧ v ≠ Memory.unlisted) ∨ c ∈ m := by
  unfold Memory.consCell at h
  split at h
  · exact .inr h
  · rcases List.mem_cons.1 h with rfl | h
    · exact .inl ⟨rfl, ‹_›⟩
    · exact .inr h

/-- A cell listed after a write is the written one or was listed before. -/
theorem Memory.mem_write {m : Memory} {a : Nat} {v : Byte} {c : Host.Cell} (h : c ∈ m.write a v) :
    (c = (a, v) ∧ v ≠ Memory.unlisted) ∨ c ∈ m := by
  induction m with
  | nil => exact Memory.mem_consCell h
  | cons e m ih =>
    obtain ⟨d, w⟩ := e
    unfold Memory.write at h
    split at h
    · exact Memory.mem_consCell h
    · split at h
      · rcases Memory.mem_consCell h with h | h
        · exact .inl h
        · exact .inr (List.mem_cons_of_mem _ h)
      · rcases List.mem_cons.1 h with rfl | h
        · exact .inr (by simp)
        · rcases ih h with h | h
          · exact .inl h
          · exact .inr (List.mem_cons_of_mem _ h)

theorem Memory.consCell_wf (a : Nat) (v : Byte) (m : Memory) (h : m.wf) (hlt : ∀ c ∈ m, a < c.1) :
    (Memory.consCell a v m).wf := by
  unfold Memory.consCell
  split
  · exact h
  · refine ⟨List.pairwise_cons.2 ⟨hlt, h.1⟩, ?_⟩
    intro c hc
    rcases List.mem_cons.1 hc with rfl | hc
    · assumption
    · exact h.2 c hc

/-- A write keeps the canonical form. -/
theorem Memory.write_wf (m : Memory) (h : m.wf) (a : Nat) (v : Byte) : (m.write a v).wf := by
  induction m with
  | nil => exact Memory.consCell_wf a v [] h (by simp)
  | cons e m ih =>
    obtain ⟨d, w⟩ := e
    obtain ⟨hs, hz⟩ := h
    obtain ⟨hlt, hs'⟩ := List.pairwise_cons.1 hs
    have hm : Memory.wf m := ⟨hs', fun c hc => hz c (by simp [hc])⟩
    unfold Memory.write
    split
    next had =>
      refine Memory.consCell_wf a v _ ⟨hs, hz⟩ ?_
      intro c hc
      rcases List.mem_cons.1 hc with rfl | hc
      · exact had
      · exact Nat.lt_trans had (hlt c hc)
    next =>
      split
      next hda => subst hda; exact Memory.consCell_wf a v m hm hlt
      next hda =>
        have ih := ih hm
        refine ⟨List.pairwise_cons.2 ⟨?_, ih.1⟩, ?_⟩
        · intro c hc
          rcases Memory.mem_write hc with ⟨rfl, -⟩ | hc
          · simp only; omega
          · exact hlt c hc
        · intro c hc
          rcases List.mem_cons.1 hc with rfl | hc
          · exact hz _ (by simp)
          · exact ih.2 c hc

/-- A write to a cell of the extent keeps the list inside the extent. -/
theorem Memory.write_within (m : Memory) (size : Nat) (h : m.within size) (a : Nat) (ha : a < size) (v : Byte) :
    (m.write a v).within size := by
  intro c hc
  rcases Memory.mem_write hc with ⟨rfl, -⟩ | hc
  · exact ha
  · exact h c hc

end Sys2Proof.Machine
end

