-- ==== Sys2Proof/Laws/PerInstr.lean ====
section
/-! SUPPORT. Statements about every instruction as syntax, one lemma per constructor. -/

namespace Sys2Proof.Laws

/-- The encoding begins with a byte of the instruction's class and has the length of the class table
(spec/30_encoding.md R46, R47, R62). -/
def EncodedForm.Statement (i : Instr) : Prop :=
  (encode i).head?.map classBits = some i.opClass.bits ∧ ∀ n, i.size = some n → (encode i).length = n

theorem EncodedForm.storeMem (offset : Int) : EncodedForm.Statement (.storeMem offset) := by
  refine ⟨congrArg some (BitVec.eq_of_toNat_eq ?_), fun n h => Option.some.inj h⟩
  have := (BitVec.ofInt 13 offset).isLt
  rw [classBits_toNat, toNat_field, wordS13_toNat]
  simp only [Instr.opClass, OpClass.bits, BitVec.reduceToNat]
  omega

theorem EncodedForm.loadConst (constant : Nat) : EncodedForm.Statement (.loadConst constant) := by
  refine ⟨congrArg some (BitVec.eq_of_toNat_eq ?_), fun n h => Option.some.inj h⟩
  have := (BitVec.ofNat 10 constant).isLt
  rw [classBits_toNat, toNat_field, wordU10_toNat]
  simp only [Instr.opClass, OpClass.bits, BitVec.reduceToNat]
  omega

theorem EncodedForm.loadMem (address : Nat) : EncodedForm.Statement (.loadMem address) := by
  refine ⟨congrArg some (BitVec.eq_of_toNat_eq ?_), fun n h => Option.some.inj h⟩
  have := (BitVec.ofNat 24 address).isLt
  rw [classBits_toNat, toNat_field, wordU24_toNat]
  simp only [Instr.opClass, OpClass.bits, BitVec.reduceToNat]
  omega

theorem EncodedForm.rol : EncodedForm.Statement .rol :=
  ⟨congrArg some (classBits_classByte 4 0), fun _ h => Option.some.inj h⟩

theorem EncodedForm.illegalA0 (low : BitVec 5) : EncodedForm.Statement (.illegalA0 low) :=
  ⟨congrArg some (classBits_classByte 0 low), fun _ h => nomatch h⟩

theorem EncodedForm.illegalA5 (low : BitVec 5) : EncodedForm.Statement (.illegalA5 low) :=
  ⟨congrArg some (classBits_classByte 5 low), fun _ h => nomatch h⟩

theorem EncodedForm.illegalA6 (low : BitVec 5) : EncodedForm.Statement (.illegalA6 low) :=
  ⟨congrArg some (classBits_classByte 6 low), fun _ h => nomatch h⟩

theorem EncodedForm.illegalA7 (low : BitVec 5) : EncodedForm.Statement (.illegalA7 low) :=
  ⟨congrArg some (classBits_classByte 7 low), fun _ h => nomatch h⟩

end Sys2Proof.Laws
end

