-- ==== Sys2Proof/Laws/Run.lean ====
section
/-! SUPPORT. Runs: one step at a time, and that the model's run is the host's. -/

namespace Sys2Proof.Machine

@[simp] theorem run_zero (s : State) : run 0 s = .next s := rfl

/-- A run of `k + 1` steps is a step and then a run of `k`. -/
theorem run_succ {k : Nat} {s u : State} (h : run (k + 1) s = .next u) :
    ∃ t, step s = .next t ∧ run k t = .next u := by
  simp only [run] at h
  split at h
  · exact ⟨_, by assumption, h⟩
  · nomatch h
  · nomatch h

theorem run_of_step {k : Nat} {s t : State} (h : step s = .next t) : run (k + 1) s = run k t := by
  simp only [run, h]

/-- The run of the statements is the run of the host's interface. -/
theorem run_eq_host (k : Nat) (s : State) : run k s = Host.Core.run Sys2Proof.core k s := by
  induction k generalizing s with
  | zero => rfl
  | succ k ih =>
    rcases h : step s with t | r | r
    all_goals
      have h' : Sys2Proof.core.step s = _ := h
      simp only [run, Host.Core.run, h, h']
    · exact ih t
    · rfl
    · rfl

end Sys2Proof.Machine
end

