-- ==== Sys2Proof/Tests/Slice0.lean ====
section
/-! SUPPORT. Tests: the well-formedness checks refuse, decoding from words written out from the spec's encodings, one
step of each instruction from the spec's vectors (spec/95_test_vectors.md), and a witness for the hypotheses of every
statement. Expected values are the spec's or worked by hand from its rules. -/

namespace Sys2Proof.Tests

open Sys2Proof Sys2Proof.Machine

/-! ## Small states -/

/-- A running state with the image, cells and stack (top first) given, at offset 0. -/
def small (code : List Byte) (mem : Memory) (stack : List Entry) : State :=
  { State.reset with code := code, mem := mem, stack := stack }

/-- What a step leaves, for comparing. -/
structure Left where
  stack : List Entry
  mem : Memory
  pc : Nat
  icount : Nat
  fault : Option FaultRecord
  status : Status
  deriving DecidableEq, Repr

def left (o : Host.Outcome State Fault Refusal) : Option Left :=
  match o with
  | .next t => some ⟨t.stack, t.mem, t.pc, t.icount, t.fault, t.status⟩
  | .fault _ => none
  | .refused _ => none

/-! ## WellFormed: an ill-formed term for each check -/

theorem test_wellFormed_storeMem_low : (Instr.storeMem (-4097)).wellFormed = false := by decide
theorem test_wellFormed_storeMem_high : (Instr.storeMem 4096).wellFormed = false := by decide
theorem test_wellFormed_loadConst : (Instr.loadConst 1024).wellFormed = false := by decide
theorem test_wellFormed_loadMem : (Instr.loadMem 16777216).wellFormed = false := by decide
theorem test_wellFormed_config_empty : Config.wellFormed { memSize := 0, stackDepth := none } = false := by decide
theorem test_wellFormed_config_large :
    Config.wellFormed { memSize := 16777217, stackDepth := none } = false := by decide
theorem test_wellFormed_config_depth :
    Config.wellFormed { memSize := 256, stackDepth := some 0 } = false := by decide

/-! ## Decoding: words written out from R48 to R51, bit by bit -/

/-- `100 xxxxx` -/
theorem test_decode_rol : decode [0b10000000] = .instr .rol := by decide
/-- `010 01010  10111 000`: 0b0101010111 = 343. -/
theorem test_decode_loadConst : decode [0b01001010, 0b10111000] = .instr (.loadConst 343) := by decide
/-- `001 11110  11010100`: 0b1111011010100 = 7892, 7892 - 8192 = -300. -/
theorem test_decode_storeMem : decode [0b00111110, 0b11010100] = .instr (.storeMem (-300)) := by decide
/-- `011 10101  01111001  10111101  111 00000`: 0xABCDEF. -/
theorem test_decode_loadMem :
    decode [0b01110101, 0b01111001, 0b10111101, 0b11100000] = .instr (.loadMem 0xABCDEF) := by decide
/-- `000 11111`, `101 00000`, `110 00001`, `111 11111` -/
theorem test_decode_illegal :
    decode [0b00011111] = .instr (.illegalA0 31) ∧ decode [0b10100000] = .instr (.illegalA5 0) ∧
    decode [0b11000001] = .instr (.illegalA6 1) ∧ decode [0b11111111] = .instr (.illegalA7 31) := by decide
/-- V3: cursors at odd offsets, at the end, and truncations. -/
theorem test_decodeAt :
    decodeAt [0x80, 0x40, 0x38] 1 = .instr (.loadConst 7) ∧ decodeAt [0x80] 1 = .endOfImage ∧
    decodeAt [0x40, 0x38, 0x7F, 0xFF] 2 = .truncated 3 4 2 ∧ decodeAt [0x3F] 0 = .truncated 1 2 1 ∧
    decodeAt [0x60, 0x00, 0x00] 0 = .truncated 3 4 3 := by decide
/-- S2 and V1: canonical encodings at the boundaries. -/
theorem test_encode :
    encode (.loadConst 1023) = [0x5F, 0xF8] ∧ encode (.storeMem (-4096)) = [0x30, 0x00] ∧
    encode (.storeMem 4095) = [0x2F, 0xFF] ∧ encode (.loadMem 16777215) = [0x7F, 0xFF, 0xFF, 0xE0] ∧
    encode (.storeMem (-1)) = [0x3F, 0xFF] ∧ encode (.illegalA5 3) = [0xA3] := by decide

/-! ## One step of each instruction -/

/-- R81's worked example. -/
theorem test_loadConst : left (step (small [0x4A, 0xB8] [] [])) = some ⟨[343], [], 2, 1, none, .running⟩ := by decide
/-- V4: 1023 is pushed as it is, above the entries there. -/
theorem test_loadConst_not_sign_extended :
    left (step (small [0x5F, 0xF8] [] [7])) = some ⟨[1023, 7], [], 2, 1, none, .running⟩ := by decide
/-- V5: a cell of 255 gives 255. -/
theorem test_loadMem_zero_extends :
    left (step (small [0x60, 0x00, 0x00, 0xA0] [(5, 255)] [])) =
      some ⟨[255], [(5, 255)], 4, 1, none, .running⟩ := by decide
/-- V5: address 65536 with the default size. -/
theorem test_loadMem_outside :
    left (step (small [0x60, 0x20, 0x00, 0x00] [] [])) =
      some ⟨[], [], 0, 0, some ⟨.outOfBounds 65536, 0, 0⟩, .haltedErr⟩ := by decide
/-- V6: 343 at offset -300 writes 87 to cell 43. -/
theorem test_storeMem_masks_value :
    left (step (small [0x3E, 0xD4] [(50, 1)] [343])) =
      some ⟨[], [(43, 87), (50, 1)], 2, 1, none, .running⟩ := by decide
/-- V6: 3 at offset -4 is address -1, and the entry stays. S7: an empty stack. -/
theorem test_storeMem_faults :
    left (step (small [0x3F, 0xFC] [] [3])) =
      some ⟨[3], [], 0, 0, some ⟨.outOfBounds (-1), 0, 0⟩, .haltedErr⟩ ∧
    left (step (small [0x20, 0x00] [] [])) =
      some ⟨[], [], 0, 0, some ⟨.stackUnderflow 1 0, 0, 0⟩, .haltedErr⟩ := by decide
/-- V8: the datum 343 is masked, the count 9 acts as 1. -/
theorem test_rol_masks_datum :
    left (step (small [0x80] [(16, 9)] [343, 16, 5])) = some ⟨[174, 5], [(16, 9)], 1, 1, none, .running⟩ := by decide
/-- V8: one entry is too few and stays; with `MEM_SIZE = 256` the count address 300 is outside. -/
theorem test_rol_faults :
    left (step (small [0x80] [] [5])) =
      some ⟨[5], [], 0, 0, some ⟨.stackUnderflow 2 1, 0, 0⟩, .haltedErr⟩ ∧
    left (step { small [0x80] [] [1, 300] with config := { memSize := 256, stackDepth := none } }) =
      some ⟨[1, 300], [], 0, 0, some ⟨.outOfBounds 300, 0, 0⟩, .haltedErr⟩ := by decide
/-- V3: the class and the byte are reported. -/
theorem test_illegalA0 :
    left (step (small [0x1F] [] [])) = some ⟨[], [], 0, 0, some ⟨.unknownOpcode 0 0x1F, 0, 0⟩, .haltedErr⟩ := by decide
theorem test_illegalA5 :
    left (step (small [0xA0] [] [])) = some ⟨[], [], 0, 0, some ⟨.unknownOpcode 5 0xA0, 0, 0⟩, .haltedErr⟩ := by decide
theorem test_illegalA6 :
    left (step (small [0xC1, 0x02] [] [])) =
      some ⟨[], [], 0, 0, some ⟨.unknownOpcode 6 0xC1, 0, 0⟩, .haltedErr⟩ := by decide
theorem test_illegalA7 :
    left (step (small [0xFF] [] [])) = some ⟨[], [], 0, 0, some ⟨.unknownOpcode 7 0xFF, 0, 0⟩, .haltedErr⟩ := by decide
/-- V6: truncation is reported before the empty stack. -/
theorem test_truncation_first :
    left (step (small [0x20] [] [])) =
      some ⟨[], [], 0, 0, some ⟨.truncatedInstruction 1 2 1, 0, 0⟩, .haltedErr⟩ := by decide
/-- V9: the empty image. -/
theorem test_empty_image : left (step State.reset) = some ⟨[], [], 0, 0, none, .haltedOk⟩ := by decide
/-- R99: a stack of depth 1 that is full. -/
theorem test_stackOverflow :
    left (step { small [0x40, 0x08] [] [9] with config := { memSize := 256, stackDepth := some 1 } }) =
      some ⟨[9], [], 0, 0, some ⟨.stackOverflow, 0, 0⟩, .haltedErr⟩ := by decide
/-- R71: a halted machine has no step. -/
theorem test_halted_has_no_step :
    step { State.reset with status := .haltedErr } = .fault (.halted .haltedErr) := rfl
/-- R113 -/
theorem test_fault_codes :
    State.reset.faultCode = 0 ∧ ((State.reset.raise (.truncatedInstruction 1 2 1)).faultCode = 1) ∧
    (State.reset.raise (.unknownOpcode 5 0xA0)).faultCode = 2 ∧
    (State.reset.raise (.stackUnderflow 1 0)).faultCode = 3 ∧ (State.reset.raise (.outOfBounds (-1))).faultCode = 4 ∧
    (State.reset.raise .stackOverflow).faultCode = 5 := by decide
/-- V7 -/
theorem test_rol8 :
    rol8 204 2 = 51 ∧ rol8 170 3 = 85 ∧ rol8 15 4 = 240 ∧ rol8 129 255 = 192 ∧ rol8 128 1 = 1 ∧
    rol8 150 4 = 105 := by decide
/-- R126: the non-zero cells of the range, the stack bottom to top. -/
theorem test_snapshot :
    (small [] [(3, 1), (9, 2), (12, 7)] [20, 10]).snapshot 4 11 =
      { start := 4, last := 11, memSize := 65536, stackSize := 2, cells := [(9, 2)], stack := [10, 20],
        fault := none } := by decide

/-! ## The fixed names -/

theorem test_tableWords :
    decodeTableWord 16 0x2000 = some (.storeMem 0) ∧ decodeTableWord 16 0x4000 = some (.loadConst 0) ∧
    decodeTableWord 32 0x60000000 = some (.loadMem 0) ∧ decodeTableWord 8 0x80 = some .rol ∧
    decodeTableWord 8 0x00 = some (.illegalA0 0) ∧ decodeTableWord 8 0xA0 = some (.illegalA5 0) ∧
    decodeTableWord 8 0xC0 = some (.illegalA6 0) ∧ decodeTableWord 8 0xE0 = some (.illegalA7 0) := by decide
theorem test_withFetchWord :
    left (step (State.reset.withFetchWord 16 0x4AB8)) = some ⟨[343], [], 2, 1, none, .running⟩ ∧
    (State.withFetchWord { State.reset with pc := 2, code := [1, 2, 3, 4, 5, 6, 7] } 8 0x80).code =
      [1, 2, 0x80, 0, 0, 0, 7] := by decide

/-! ## Source text -/

theorem test_parseLine :
    parseLine ['l', 'o', 'a', 'd', '_', 'c', 'o', 'n', 's', 't', ' ', '3', '4', '3', ';', 'x'] =
      .instr (.loadConst 343) ∧
    parseLine [' ', 'R', 'o', 'l', ' ', 'z'] = .instr .rol ∧ parseLine [' ', ';', 'R'] = .blank ∧
    parseLine ['L', 'O', 'A', 'D', '_', 'C', 'O', 'N', 'S', 'T', ' ', '1', '0', '2', '4'] = .rejected ∧
    parseLine ['L', 'O', 'A', 'D', '_', 'C', 'O', 'N', 'S', 'T'] = .rejected ∧
    parseLine ['L', 'O', 'A', 'D', '_', 'M', 'E', 'M', ' ', '-', '1'] = .rejected := by decide
/-- P1: `LOAD_CONST 343`, `STORE_MEM -300`. -/
theorem test_assembleText :
    assembleText ['L', 'O', 'A', 'D', '_', 'C', 'O', 'N', 'S', 'T', ' ', '3', '4', '3', '\n',
      'S', 'T', 'O', 'R', 'E', '_', 'M', 'E', 'M', ' ', ' ', '-', '3', '0', '0', '\n'] =
      some [0x4A, 0xB8, 0x3E, 0xD4] := by decide

/-! ## Witnesses: the hypotheses of each statement are met, at boundary values -/

theorem witness_DecodeEncodeRoundTrip :
    (Instr.storeMem (-4096)).wellFormed = true ∧ (Instr.storeMem 4095).wellFormed = true ∧
    (Instr.loadConst 1023).wellFormed = true ∧ (Instr.loadMem 16777215).wellFormed = true ∧
    Instr.rol.wellFormed = true ∧ (Instr.illegalA7 31).wellFormed = true := by decide
theorem witness_EncodeDecodeClearsPadBits : decode [0x4A, 0xBF, 0x33] = .instr (.loadConst 343) := by decide
theorem witness_DecodedInstructionIsWellFormed :
    decode [0x7F, 0xFF, 0xFF, 0xFF] = .instr (.loadMem 16777215) ∧ (Instr.loadMem 16777215).size = some 4 := by decide
theorem witness_LoadConstOperandAssembly : (0x5F : Byte).toNat >>> 5 = 2 ∧ (0x40 : Byte).toNat >>> 5 = 2 := by decide
theorem witness_StoreMemOperandAssembly :
    ((0x3F : Byte).toNat >>> 5 = 1 ∧ 8191 = (((0x3F : Byte).toNat % 32) <<< 8) ||| (0xFF : Byte).toNat) ∧
    ((0x2F : Byte).toNat >>> 5 = 1 ∧ 4095 = (((0x2F : Byte).toNat % 32) <<< 8) ||| (0xFF : Byte).toNat) := by decide
theorem witness_LoadMemOperandAssembly :
    ((0x7F : Byte).toNat >>> 5 = 3 ∧ 16777215 = (((0x7F : Byte).toNat % 32) <<< 19) ||| ((0xFF : Byte).toNat <<< 11) |||
      ((0xFF : Byte).toNat <<< 3) ||| ((0xE0 : Byte).toNat >>> 5)) ∧ (0x9F : Byte).toNat >>> 5 = 4 := by decide
theorem witness_TruncationIffTooFewBytes :
    1 ≤ ([0x80, 0x60] : List Byte).length ∧ decodeAt [0x80, 0x60] 1 = .truncated 3 4 1 ∧
    decodeAt [0x80, 0x40, 0x38] 1 = .instr (.loadConst 7) ∧ (Instr.loadConst 7).size = some 2 := by decide
theorem witness_EncodeFollowsFormula :
    (1023 ≤ 1023 ∧ 0x5FF8 = (2 <<< 13) ||| (1023 <<< 3)) ∧
    (-4096 ≤ (-4096 : Int) ∧ (-4096 : Int) ≤ 4095 ∧
      ((4096 : Nat) : Int) = (if 0 ≤ (-4096 : Int) then (-4096 : Int) else -4096 + 8192) ∧
      0x3000 = (1 <<< 13) ||| 4096) ∧
    (-4096 ≤ (4095 : Int) ∧ (4095 : Int) ≤ 4095 ∧
      ((4095 : Nat) : Int) = (if 0 ≤ (4095 : Int) then (4095 : Int) else 4095 + 8192) ∧
      0x2FFF = (1 <<< 13) ||| 4095) ∧
    (16777215 ≤ 16777215 ∧ 0x7FFFFFE0 = (3 <<< 29) ||| (16777215 <<< 5)) := by decide
theorem witness_PadBitsAreIgnored :
    (0x9F : Byte).toNat >>> 5 = 4 ∧ ((0x4A : Byte).toNat >>> 5 = 2 ∧ (0xB8 : Byte).toNat >>> 3 = (0xBF : Byte).toNat >>> 3) ∧
    ((0x60 : Byte).toNat >>> 5 = 3 ∧ (0x00 : Byte).toNat >>> 5 = (0x1F : Byte).toNat >>> 5) := by decide
theorem witness_FirstByteSelectsTheRow :
    (0x1F : Byte).toNat < 0x20 ∧ (0x20 ≤ (0x20 : Byte).toNat ∧ (0x3F : Byte).toNat < 0x40) ∧
    (0x40 ≤ (0x40 : Byte).toNat ∧ (0x5F : Byte).toNat < 0x60) ∧ (0x60 ≤ (0x60 : Byte).toNat ∧ (0x7F : Byte).toNat < 0x80) ∧
    (0x80 ≤ (0x80 : Byte).toNat ∧ (0x9F : Byte).toNat < 0xA0) ∧ (0xA0 ≤ (0xA0 : Byte).toNat ∧ (0xBF : Byte).toNat < 0xC0) ∧
    (0xC0 ≤ (0xC0 : Byte).toNat ∧ (0xDF : Byte).toNat < 0xE0) ∧ 0xE0 ≤ (0xE0 : Byte).toNat := by decide
theorem witness_DecoderBlockOutputs :
    1 ≤ ([0x80, 0x5F, 0xF8] : List Byte).length ∧ ([0x80, 0x5F, 0xF8] : List Byte)[1]? = some 0x5F ∧
    (decodeAt [0x80, 0x5F, 0xF8] 1).nextCursor 1 = some 3 ∧
    decodeAt [0x80, 0x5F, 0xF8] 1 = .instr (.loadConst 1023) ∧ (Instr.loadConst 1023).size = some 2 ∧
    (decodeAt [0x80, 0x5F] 1).nextCursor 1 = none ∧ (decodeAt [0x80] 1).nextCursor 1 = none ∧
    (decodeAt [0xA0] 0).nextCursor 0 = none := by decide
theorem witness_FetchReadsOnlyItsOwnBytes :
    (small [0x4A, 0xB8, 0x80] [] []).fetch = .instr (.loadConst 343) ∧
    (small [0x4A, 0xB8] [] []).pc = (small [0x4A, 0xB8, 0x80] [] []).pc ∧
    ∀ j, j < (Instr.loadConst 343).size.getD 1 →
      (small [0x4A, 0xB8] [] []).codeRead (0 + j) = (small [0x4A, 0xB8, 0x80] [] []).codeRead (0 + j) := by decide
theorem witness_ImageDecodesToItsInstructions :
    (∀ i ∈ [Instr.rol, .loadMem 16777215, .illegalA0 0], i.wellFormed = true) ∧
    [Instr.rol, .loadMem 16777215, .illegalA0 0][2]? = some (.illegalA0 0) := by decide
theorem witness_RotateFollowsFormula : 8 % 8 = 0 ∧ 255 % 8 ≠ 0 ∧ 7 < 8 := by decide
theorem witness_RotateCountLaws : 0 ≤ 8 ∧ 8 ≤ 8 := by decide

/-- A state with a finite stack of depth 2 and 256 cells. -/
def finite (stack : List Entry) : State :=
  { small [] [(16, 9)] stack with config := { memSize := 256, stackDepth := some 2 } }

theorem witness_LoadConstPushesTheConstant :
    (1023 ≤ 1023 ∧ (finite [1]).config.stackDepth ≠ some (finite [1]).stack.length) ∧
    (0 ≤ 1023 ∧ (finite [1, 2]).config.stackDepth = some (finite [1, 2]).stack.length) := by decide
theorem witness_LoadMemPushesTheCell :
    (255 ≤ 16777215 ∧ 255 < (finite [1]).config.memSize ∧
      (finite [1]).config.stackDepth ≠ some (finite [1]).stack.length) ∧
    (256 ≤ 16777215 ∧ (finite []).config.memSize ≤ 256) := by decide
theorem witness_StoreMemWritesTheLowByte :
    (finite [343]).mem.wf ∧ (finite [343]).stack = 343 :: [] ∧ (343 : Entry).toInt + (-343) = (0 : Nat) ∧
    (343 : Entry).toInt + (-88) = (255 : Nat) ∧ 255 < (finite [343]).config.memSize := by decide
theorem witness_StoreMemFaultsInOrder :
    (finite []).stack = [] ∧ (finite [3]).stack = 3 :: [] ∧ (3 : Entry).toInt + (-4) < 0 ∧
    ((finite [3]).config.memSize : Int) ≤ (3 : Entry).toInt + 253 := by decide
theorem witness_RolRotatesTheTopEntry :
    (finite [343, 16]).stack = 343 :: 16 :: [] ∧ (16 : Entry).toInt = (16 : Nat) ∧
    16 < (finite [343, 16]).config.memSize ∧
    (∀ e ∈ (finite [343, 16]).config.stackDepth, (finite [343, 16]).stack.length ≤ e) ∧
    ((87 : Nat) : Int) = (343 : Entry).toInt % 256 ∧ 1 = ((finite [343, 16]).mem.read 16).toNat % 8 := by decide
theorem witness_RolFaultsInOrder :
    (finite [5]).stack.length < 2 ∧ (finite [5, 256]).stack = 5 :: 256 :: [] ∧
    ((finite [5, 256]).config.memSize : Int) ≤ (256 : Entry).toInt ∧ (0xFFFF : Entry).toInt < 0 := by decide
theorem witness_StackOverflowExactlyWhenFull :
    (Instr.loadMem 255).wellFormed = true ∧
    (∀ e ∈ (finite [1, 2]).config.stackDepth, (finite [1, 2]).stack.length ≤ e) ∧
    (finite [1, 2]).config.stackDepth = some (finite [1, 2]).stack.length ∧ 255 < (finite [1, 2]).config.memSize := by decide
theorem witness_WellFormedInstructionsNeverStop :
    (Instr.loadConst 1023).wellFormed = true ∧
    left (exec (.loadConst 32768) State.reset) = none := by decide
theorem witness_refused_exec : exec (.loadConst 32768) State.reset = .refused .pushOutOfRange := rfl
theorem witness_LoadsLeaveMemoryAlone :
    exec (.loadConst 5) (finite [1]) = .next ((finite [1]).withStack [5, 1] |>.retire 2) := rfl
theorem witness_StoreMemChangesOneCell :
    (∃ t, exec (.storeMem 0) (finite [5]) = .next t) ∧ (finite [5]).stack = 5 :: [] ∧
    ((16 : Nat) : Int) ≠ storeAddress 5 0 ∧ (∃ t, exec (.storeMem 0) (finite []) = .next t) ∧ (finite []).stack = [] :=
  ⟨⟨_, rfl⟩, rfl, by decide, ⟨_, rfl⟩, rfl⟩
theorem witness_RolLeavesMemoryAlone : ∃ t, exec .rol (finite [343, 16]) = .next t := ⟨_, rfl⟩
theorem witness_FaultsArePrecise :
    (finite []).status = .running ∧ (∃ t, exec .rol (finite []) = .next t ∧ t.status ≠ .running) ∧
    ∃ t, step (small [0x20] [] []) = .next t ∧ t.status = .haltedErr :=
  ⟨rfl, ⟨_, rfl, by decide⟩, ⟨_, rfl, rfl⟩⟩
theorem witness_CompletedInstructionRetires :
    (finite []).status = .running ∧ ∃ t, exec (.loadMem 16) (finite []) = .next t ∧ t.status = .running :=
  ⟨rfl, ⟨_, rfl, rfl⟩⟩
theorem witness_OnlyStoreMemWritesMemory :
    ∃ t, step (small [0x20, 0x00] [] [5]) = .next t ∧ t.mem ≠ (small [0x20, 0x00] [] [5]).mem :=
  ⟨_, rfl, by decide⟩
theorem witness_CodeIsReadOnly :
    (∃ t, step (small [0x40, 0x00] [] []) = .next t) ∧ ∃ t, exec (.loadConst 0) State.reset = .next t :=
  ⟨⟨_, rfl⟩, ⟨_, rfl⟩⟩
theorem witness_ParametersNeverChange : ∃ t, run 2 (small [0x40, 0x00] [] []) = .next t ∧ t.status = .haltedOk :=
  ⟨_, rfl, rfl⟩
theorem witness_EntriesBelowAreUnreachable :
    (small [] [] [5]).config.stackDepth = none ∧ (small [] [] [5]).status = .running ∧
    ∃ t, exec (.storeMem 0) (small [] [] [5]) = .next t ∧ t.status = .running :=
  ⟨rfl, rfl, ⟨_, rfl, rfl⟩⟩
theorem witness_PcAndIcountAreNoOperands : ∃ t, exec .rol (finite [343, 16]) = .next t := ⟨_, rfl⟩
theorem witness_StoreIsSeenByNextInstruction :
    (small [] [] [9, 343, 16]).mem.wf ∧ (small [] [] [9, 343, 16]).config.stackDepth = none ∧
    (small [] [] [9, 343, 16]).status = .running ∧ (small [] [] [9, 343, 16]).stack = 9 :: [343, 16] ∧
    (9 : Entry).toInt + 7 = (16 : Nat) ∧ (16 : Entry).toInt = (16 : Nat) ∧
    ∃ t, exec (.storeMem 7) (small [] [] [9, 343, 16]) = .next t ∧ t.status = .running :=
  ⟨by decide, rfl, rfl, rfl, by decide, by decide, ⟨_, rfl, rfl⟩⟩
theorem witness_StepRunsTheDecodedInstruction :
    (small [0x80, 0x4A, 0xB8] [] []).status = .running ∧ (Instr.loadConst 343).wellFormed = true ∧
    decodeAt [0x80, 0x4A, 0xB8] 1 = .instr (.loadConst 343) := by decide
theorem witness_NormalHaltAtEndOfImage :
    ({ small [0x80] [] [1] with pc := 1 } : State).status = .running ∧
    ({ small [0x80] [] [1] with pc := 1 } : State).pc = ({ small [0x80] [] [1] with pc := 1 } : State).code.length := by
  decide
theorem witness_TruncatedInstructionEndsTheRun :
    (∀ p ∈ ([([0x3F], 0x3F, 1, 2), ([0x40], 0x40, 2, 2), ([0x60, 0, 0], 0x60, 3, 4)] :
        List (List Byte × Byte × Nat × Nat)),
      (small p.1 [] []).status = .running ∧ (small p.1 [] []).code[(small p.1 [] []).pc]? = some p.2.1 ∧
      p.2.1.toNat >>> 5 = p.2.2.1 ∧ (small p.1 [] []).code.length - (small p.1 [] []).pc < p.2.2.2) ∧
    (small [0x3F] [] []).fault = none ∧
    left (step (small [0x3F] [] [])) =
      some ⟨[], [], 0, 0, some ⟨.truncatedInstruction 1 2 1, 0, 0⟩, .haltedErr⟩ := by decide
theorem witness_UnknownClassEndsTheRun :
    ∀ b ∈ ([0x1F, 0xA0, 0xDF, 0xFF] : List Byte), (small [b] [] []).status = .running ∧
      (small [b] [] []).code[(small [b] [] []).pc]? = some b ∧
      (b.toNat >>> 5 = 0 ∨ b.toNat >>> 5 = 5 ∨ b.toNat >>> 5 = 6 ∨ b.toNat >>> 5 = 7) := by decide
theorem witness_FaultPriority :
    ((small [0x20] [] []).status = .running ∧ (small [0x20] [] []).code.drop (small [0x20] [] []).pc = [0x20] ∧
      (0x20 : Byte).toNat >>> 5 = 1 ∧ (small [0x20] [] []).stack = []) ∧
    ((finite [5, 256]).fault = none ∧ left (exec .rol (finite [5, 256])) =
      some ⟨[5, 256], [(16, 9)], 0, 0, some ⟨.outOfBounds 256, 0, 0⟩, .haltedErr⟩) ∧
    (finite [1, 2]).config.memSize ≤ 256 := by decide
theorem witness_StepHasThreeOutcomes : State.reset.status = .running := rfl
theorem witness_RunStateMachine :
    ((small [0x80] [] []).pc ≤ (small [0x80] [] []).code.length ∧ ∃ t, step (small [0x80] [] []) = .next t) ∧
    ({ State.reset with status := .haltedOk } : State).status ≠ .running :=
  ⟨⟨by decide, ⟨_, rfl⟩⟩, by decide⟩
theorem witness_InvariantHoldsAtReset :
    Config.wellFormed { memSize := 16777216, stackDepth := some 1 } = true ∧
    Memory.wf [(0, 1), (16777215, 255)] ∧ Memory.within [(0, 1), (16777215, 255)] 16777216 := by decide

/-- A state of the invariant in mid-run: two entries, 1024 cells. -/
def midRun : State :=
  { small [0x40, 0x80, 0x44, 0x08, 0x80, 0x20, 0x00] [(16, 1)] [129, 16] with
    config := { memSize := 1024, stackDepth := some 2 }, pc := 4, icount := 2 }

theorem midRun_inv : midRun.Inv :=
  { configOk := by decide, memCanonical := by decide, memWithin := by decide,
    entries := List.forall_mem_cons.2 ⟨by decide, List.forall_mem_singleton.2 (by decide)⟩, depth := by decide,
    stackBound := by decide, pcBound := by decide, icountBound := by decide, faultIff := by decide,
    report := by decide, okAtEnd := nofun, errInside := by decide }
theorem witness_StepKeepsInvariant : midRun.Inv ∧ ∃ t, step midRun = .next t := ⟨midRun_inv, ⟨_, rfl⟩⟩
theorem witness_EveryRunHalts : midRun.status = .running ∧ midRun.pc ≤ midRun.code.length := by decide
theorem witness_MemoryHoldsTheLastStore : midRun.mem.wf ∧ ∃ t, run 2 midRun = .next t := ⟨by decide, ⟨_, rfl⟩⟩
theorem witness_IcountIsTheInstructionPosition :
    instrOffset midRun.code midRun.icount = some midRun.pc ∧ ∃ t, step midRun = .next t := ⟨by decide, ⟨_, rfl⟩⟩
theorem witness_EndOfRun :
    Config.default.wellFormed = true ∧ Memory.wf [(5, 150)] ∧ Memory.within [(5, 150)] Config.default.memSize ∧
    (∃ t, run 2 (State.fresh Config.default [(5, 150)] [0x60, 0x00, 0x00, 0xA0]) = .next t ∧ t.status = .haltedOk) ∧
    ∃ t, run 1 (State.fresh Config.default [(5, 150)] [0x80]) = .next t ∧ t.status = .haltedErr :=
  ⟨by decide, by decide, by decide, ⟨_, rfl, rfl⟩, ⟨_, rfl, rfl⟩⟩
theorem witness_HighCellsAreNeverWritten : midRun.Inv ∧ (∃ t, step midRun = .next t) ∧ 5118 < 5119 :=
  ⟨midRun_inv, ⟨_, rfl⟩, by decide⟩
theorem witness_LowCellsCanHoldEveryByte :
    State.reset.status = .running ∧ State.reset.mem.wf ∧ State.reset.config.stackDepth = none ∧ 4095 ≤ 4095 ∧
    4095 < State.reset.config.memSize ∧ 0 < State.reset.config.memSize ∧ 255 ≤ 255 := by decide
theorem witness_RolCompletesInLargeMemory :
    midRun.Inv ∧ midRun.status = .running ∧ 1024 ≤ midRun.config.memSize ∧ 2 ≤ midRun.stack.length :=
  ⟨midRun_inv, by decide⟩
theorem witness_SnapshotReportsTheState : midRun.mem.wf := by decide

end Sys2Proof.Tests
end

section
/-! SUPPORT. R9, the three outcomes of a step: what the decoder answers at `pc` decides the step, a decoded instruction
is well-formed, and a well-formed instruction always answers a next state. -/

namespace Sys2Proof

/-- Only a well-formed instruction is decoded, so the decoder needs no range check (spec/30_encoding.md R60). -/
theorem wellFormed_of_decode {bs : List Byte} {i : Instr} (h : decode bs = .instr i) : i.wellFormed = true := by
  obtain ⟨b0, rest, -, h⟩ := decode_instr h
  rcases h with ⟨-, b1, r, -, rfl⟩ | ⟨-, b1, r, -, rfl⟩ | ⟨-, b1, b2, b3, r, -, rfl⟩ | ⟨-, rfl⟩ | ⟨-, rfl⟩ | ⟨-, rfl⟩ |
    ⟨-, rfl⟩ | ⟨-, rfl⟩
  · obtain ⟨hoff, -, -⟩ := decoded_operand_ranges b0 b1 0 0
    simpa [Instr.wellFormed] using hoff
  · obtain ⟨-, hconst, -⟩ := decoded_operand_ranges b0 b1 0 0
    simpa [Instr.wellFormed] using hconst
  · obtain ⟨-, -, haddr⟩ := decoded_operand_ranges b0 b1 b2 b3
    simpa [Instr.wellFormed] using haddr
  all_goals rfl

end Sys2Proof

namespace Sys2Proof.Machine

/-- A well-formed instruction is never refused and never ends in the model's fault: the range check on a push passes for
every constant an encoding can hold (spec/10_state.md R16). -/
theorem exec_next_of_wellFormed {i : Instr} (h : i.wellFormed = true) (s : State) : ∃ t, exec i s = .next t := by
  cases i with
  | storeMem off =>
    rcases execStoreMem_cases off s with ⟨_, _, _, _, e⟩ | ⟨_, _, _, _, e⟩ | ⟨_, e⟩ <;> exact ⟨_, e⟩
  | loadConst b =>
    have hb : b < 1024 := by simpa [Instr.wellFormed] using h
    rcases execLoadConst_cases b s with ⟨_, _, e⟩ | ⟨_, _, e⟩ | ⟨hbig, _⟩
    · exact ⟨_, e⟩
    · exact ⟨_, e⟩
    · omega
  | loadMem b =>
    rcases execLoadMem_cases b s with ⟨_, _, e⟩ | ⟨_, _, e⟩ | ⟨_, e⟩ <;> exact ⟨_, e⟩
  | rol =>
    rcases execRol_cases s with ⟨_, _, _, _, _, _, e⟩ | ⟨_, _, _, _, _, _, e⟩ | ⟨_, _, _, _, _, e⟩ | ⟨_, e⟩ <;>
      exact ⟨_, e⟩
  | illegalA0 low => exact ⟨_, rfl⟩
  | illegalA5 low => exact ⟨_, rfl⟩
  | illegalA6 low => exact ⟨_, rfl⟩
  | illegalA7 low => exact ⟨_, rfl⟩

/-! ## The step of a running machine, by what the decoder answers (spec/40_fetch_decode_execute.md R72) -/

theorem step_endOfImage {s : State} (hs : s.status = .running) (hf : s.fetch = .endOfImage) :
    step s = .next s.haltNormally := by
  simp only [step, hs, hf]

theorem step_truncated {s : State} {a : BitVec 3} {n r : Nat} (hs : s.status = .running)
    (hf : s.fetch = .truncated a n r) : step s = .next (s.raise (.truncatedInstruction a n r)) := by
  simp only [step, hs, hf]

theorem step_instr {s : State} {i : Instr} (hs : s.status = .running) (hf : s.fetch = .instr i) :
    step s = exec i s := by
  simp only [step, hs, hf]

/-- The decoder answers no instruction exactly when no byte is left at `pc` (spec/30_encoding.md R58). -/
theorem State.fetch_endOfImage {s : State} : s.fetch = .endOfImage ↔ s.code.length ≤ s.pc :=
  decode_endOfImage.trans List.drop_eq_nil_iff

/-- A running machine is never stuck and never refuses what stands at `pc` (spec/00_scope.md R9). -/
theorem step_next_of_running {s : State} (hs : s.status = .running) : ∃ t, step s = .next t := by
  match hf : s.fetch with
  | .endOfImage => exact ⟨_, step_endOfImage hs hf⟩
  | .truncated _ _ _ => exact ⟨_, step_truncated hs hf⟩
  | .instr i =>
    rw [step_instr hs hf]
    exact exec_next_of_wellFormed (wellFormed_of_decode hf) s

/-- Settles O42: a running machine answers a next state, and `step_next` with `exec_next` says which of the three
outcomes it is. -/
theorem stepHasThreeOutcomes : Obligations.StepHasThreeOutcomes := by
  intro s hs
  obtain ⟨t, ht⟩ := step_next_of_running hs
  refine ⟨t, ht, ?_⟩
  obtain ⟨-, ⟨hf, rfl⟩ | ⟨a, n, r, -, rfl⟩ | ⟨i, -, he⟩⟩ := step_next ht
  · exact .inr (.inl ⟨rfl, State.fetch_endOfImage.1 hf, rfl⟩)
  · exact .inr (.inr ⟨rfl, ⟨_, rfl⟩, rfl⟩)
  · obtain ⟨u, n, -, -, rfl, -, -, -, hstatus, hicount, -⟩ | ⟨c, rfl⟩ := exec_next he
    · exact .inl ⟨by simp [hstatus, hs], by simp [hicount]⟩
    · exact .inr (.inr ⟨rfl, ⟨_, rfl⟩, rfl⟩)

end Sys2Proof.Machine
end

section
/-! SUPPORT. R30, the code space is read-only and is no data: no instruction and no step changes the image, and every
operation an instruction is made of commutes with putting another image in place. -/

namespace Sys2Proof.Machine

/-! ## The image is never written -/

theorem exec_code {i : Instr} {s t : State} (h : exec i s = .next t) : t.code = s.code := by
  obtain ⟨u, n, -, -, rfl, -, hcode, -⟩ | ⟨c, rfl⟩ := exec_next h
  · exact hcode
  · rfl

theorem step_code {s t : State} (h : step s = .next t) : t.code = s.code := by
  obtain ⟨-, ⟨-, rfl⟩ | ⟨a, n, r, -, rfl⟩ | ⟨i, -, he⟩⟩ := step_next h
  · rfl
  · rfl
  · exact exec_code he

/-! ## Another image in place -/

/-- The state with another image in place and nothing else changed. -/
def State.withCode (c : List Byte) (s : State) : State := { s with code := c }

/-- The outcome with another image in place in its next state, if it has one. -/
def outcomeWithCode (c : List Byte) : Host.Outcome State Fault Refusal → Host.Outcome State Fault Refusal
  | .next t => .next (t.withCode c)
  | .fault r => .fault r
  | .refused r => .refused r

@[simp] theorem State.memRead_withCode (c : List Byte) (s : State) (a : Nat) :
    (s.withCode c).memRead a = s.memRead a := rfl

@[simp] theorem State.cellAddress_withCode (c : List Byte) (s : State) (a : Int) :
    (s.withCode c).cellAddress a = s.cellAddress a := rfl

@[simp] theorem State.memWrite_withCode (c : List Byte) (s : State) (a : Nat) (v : Byte) :
    (s.withCode c).memWrite a v = (s.memWrite a v).withCode c := rfl

/-- A push of a value no entry holds is refused (spec/10_state.md R16), beside `push_ok` and `push_full`. -/
theorem State.push_outOfRange (s : State) (v : Int) (h : v < -32768 ∨ 32767 < v) :
    s.push v = .error (.refuse .pushOutOfRange) := by
  rw [State.push, if_neg (by omega)]

@[simp] theorem State.push_withCode (c : List Byte) (s : State) (v : Int) :
    (s.withCode c).push v = (s.push v).map (State.withCode c) := by
  obtain ⟨h, h', hd, e⟩ | ⟨h, h', hd, e⟩ | ⟨h, e⟩ := s.push_cases v
  · rw [e, State.push_ok (s.withCode c) v ⟨h, h'⟩ hd]
    rfl
  · rw [e, State.push_full (s.withCode c) v ⟨h, h'⟩ hd]
    rfl
  · rw [e, (s.withCode c).push_outOfRange v h]
    rfl

@[simp] theorem State.popOne_withCode (c : List Byte) (s : State) :
    (s.withCode c).popOne = s.popOne.map (Prod.map id (State.withCode c)) := by
  match hs : s.stack with
  | [] => rw [State.popOne_nil hs, State.popOne_nil (s := s.withCode c) hs]; rfl
  | v :: rest => rw [State.popOne_cons hs, State.popOne_cons (s := s.withCode c) hs]; rfl

@[simp] theorem State.popTwo_withCode (c : List Byte) (s : State) :
    (s.withCode c).popTwo = s.popTwo.map (Prod.map id (Prod.map id (State.withCode c))) := by
  by_cases h : s.sp < 2
  · rw [State.popTwo_short h, State.popTwo_short (s := s.withCode c) h]
    rfl
  · match hs : s.stack with
    | [] => simp [State.sp, hs] at h
    | [_] => simp [State.sp, hs] at h
    | v :: a :: rest => rw [State.popTwo_cons hs, State.popTwo_cons (s := s.withCode c) hs]; rfl

/-- Concluding an instruction keeps whatever image is in place, whether it retires, raises or is refused. -/
theorem State.conclude_withCode (c : List Byte) (s : State) (n : Nat) (r : Except Stop State) :
    (s.withCode c).conclude n (r.map (State.withCode c)) = outcomeWithCode c (s.conclude n r) := by
  match r with
  | .ok _ => rfl
  | .error (.raise _) => rfl
  | .error (.refuse _) => rfl

/-! ## No instruction reads the image -/

theorem execLoadConst_withCode (c : List Byte) (b : Nat) (s : State) :
    execLoadConst b (s.withCode c) = outcomeWithCode c (execLoadConst b s) := by
  rw [execLoadConst, State.push_withCode, State.conclude_withCode, execLoadConst]

theorem execLoadMem_withCode (c : List Byte) (b : Nat) (s : State) :
    execLoadMem b (s.withCode c) = outcomeWithCode c (execLoadMem b s) := by
  rw [execLoadMem, execLoadMem, ← State.conclude_withCode, State.cellAddress_withCode]
  cases s.cellAddress b with
  | error _ => rfl
  | ok a => simp [bind, Except.bind]

theorem execStoreMem_withCode (c : List Byte) (off : Int) (s : State) :
    execStoreMem off (s.withCode c) = outcomeWithCode c (execStoreMem off s) := by
  rw [execStoreMem, execStoreMem, ← State.conclude_withCode, State.popOne_withCode]
  cases s.popOne with
  | error _ => rfl
  | ok p =>
    obtain ⟨v, popped⟩ := p
    simp only [bind, Except.bind, Except.map, Prod.map, id, State.cellAddress_withCode]
    cases s.cellAddress (storeAddress v off) <;> rfl

theorem execRol_withCode (c : List Byte) (s : State) :
    execRol (s.withCode c) = outcomeWithCode c (execRol s) := by
  rw [execRol, execRol, ← State.conclude_withCode, State.popTwo_withCode]
  cases s.popTwo with
  | error _ => rfl
  | ok p =>
    obtain ⟨v, a, popped⟩ := p
    simp only [bind, Except.bind, Except.map, Prod.map, id, State.cellAddress_withCode]
    cases s.cellAddress a.toInt with
    | error _ => rfl
    | ok n => simp [Except.map]

/-- An instruction does the same whatever image is in place: only fetch reads the code (spec/20_memory.md R30). -/
theorem exec_withCode (i : Instr) (c : List Byte) (s : State) :
    exec i (s.withCode c) = outcomeWithCode c (exec i s) := by
  cases i with
  | storeMem off => exact execStoreMem_withCode c off s
  | loadConst b => exact execLoadConst_withCode c b s
  | loadMem b => exact execLoadMem_withCode c b s
  | rol => exact execRol_withCode c s
  | illegalA0 low => rfl
  | illegalA5 low => rfl
  | illegalA6 low => rfl
  | illegalA7 low => rfl

/-- Settles O32: the frame lemmas of step and instruction, and that an instruction commutes with a change of image. -/
theorem codeIsReadOnly : Obligations.CodeIsReadOnly := by
  refine ⟨fun s t => step_code, fun i s t => exec_code, fun i s c => ?_⟩
  exact (exec_withCode i c s).trans (by cases exec i s <;> rfl)

end Sys2Proof.Machine
end

section
/-! SUPPORT. The encoding family: the operands of the decoder by the spec's shift-or formulas (R52 to R54), when the
decoder answers a truncation (R59), and the canonical encoding by its formulas (R62). -/

namespace Sys2Proof

/-! ## Operands by shifts (R52 to R54) -/

/-- LOAD_CONST's shift-or formula is the field `W[12:3]` (spec/30_encoding.md R52). -/
theorem shifted_operandU10 (b0 b1 : Byte) :
    ((b0.toNat % 32) <<< 5) ||| (b1.toNat >>> 3) = (b0.toNat * 256 + b1.toNat) / 8 % 1024 := by
  have h1 := b1.isLt
  rw [Nat.shiftRight_eq_div_pow, shiftLeft_or_eq_add _ _ 5 (by omega)]
  omega

/-- STORE_MEM's shift-or formula is the field `W[12:0]` (spec/30_encoding.md R53). -/
theorem shifted_operandS13 (b0 b1 : Byte) :
    ((b0.toNat % 32) <<< 8) ||| b1.toNat = (b0.toNat * 256 + b1.toNat) % 8192 := by
  have h1 := b1.isLt
  rw [shiftLeft_or_eq_add _ _ 8 h1]
  omega

/-- LOAD_MEM's shift-or formula is the field `W[28:5]`: each byte's bits lie below those of the byte before it
(spec/30_encoding.md R54). -/
theorem shifted_operandU24 (b0 b1 b2 b3 : Byte) :
    ((b0.toNat % 32) <<< 19) ||| (b1.toNat <<< 11) ||| (b2.toNat <<< 3) ||| (b3.toNat >>> 5) =
      (((b0.toNat * 256 + b1.toNat) * 256 + b2.toNat) * 256 + b3.toNat) / 32 % 16777216 := by
  have h1 := b1.isLt
  have h2 := b2.isLt
  have h3 := b3.isLt
  have low : (b2.toNat <<< 3) ||| (b3.toNat >>> 5) = b2.toNat * 8 + b3.toNat / 32 := by
    rw [Nat.shiftRight_eq_div_pow]
    exact shiftLeft_or_eq_add _ _ 3 (by omega)
  have mid : (b1.toNat <<< 11) ||| (b2.toNat * 8 + b3.toNat / 32) =
      b1.toNat * 2048 + (b2.toNat * 8 + b3.toNat / 32) := shiftLeft_or_eq_add _ _ 11 (by omega)
  rw [Nat.or_assoc, Nat.or_assoc, low, mid, shiftLeft_or_eq_add _ _ 19 (by omega)]
  omega

/-- The class as the spec writes it, a shift, and as the decoder's lemmas write it. -/
theorem class_shift_eq_div (b0 : Byte) : b0.toNat >>> 5 = b0.toNat / 32 := Nat.shiftRight_eq_div_pow _ 5

/-- Settles O4: the decoder's operand and the shift-or formula are the same field of the word. -/
theorem loadConstOperandAssembly : Obligations.LoadConstOperandAssembly := by
  intro b0 b1 rest hclass
  rw [class_shift_eq_div] at hclass
  rw [shifted_operandU10, decode_loadConst hclass, decodeLoadConst, operandU10_eq]
  exact ⟨rfl, rfl, by omega⟩

/-- Settles O5: the shift-or formula is the field that the decoder sign-extends, and the range is the decoded
operand's. -/
theorem storeMemOperandAssembly : Obligations.StoreMemOperandAssembly := by
  intro b0 b1 rest u hclass hu
  rw [class_shift_eq_div] at hclass
  rw [shifted_operandS13] at hu
  obtain ⟨⟨hlow, hhigh⟩, -, -⟩ := decoded_operand_ranges b0 b1 0 0
  rw [decode_storeMem hclass, decodeStoreMem, ← operandS13_eq b0 b1 u hu]
  exact ⟨rfl, hu, hlow, hhigh⟩

/-- Settles O6: the decoder's operand and the shift-or formula are the same field of the four-byte word. -/
theorem loadMemOperandAssembly : Obligations.LoadMemOperandAssembly := by
  refine ⟨fun b0 b1 b2 b3 rest b hclass hb => ?_, fun b0 rest hclass => ?_⟩
  · rw [class_shift_eq_div] at hclass
    rw [shifted_operandU24] at hb
    rw [decode_loadMem hclass, decodeLoadMem, operandU24_eq, ← hb]
    exact ⟨rfl, rfl, by omega⟩
  · exact decode_rol (class_shift_eq_div b0 ▸ hclass) rest

/-! ## Truncation (R59) -/

/-- Equality with a truncation that has fewer bytes left than its size, part by part. -/
theorem truncated_eq_iff {a a' : BitVec 3} {n n' r r' : Nat} (h : r' < n') :
    Decoded.truncated a' n' r' = .truncated a n r ↔
      a.toNat = a'.toNat ∧ n = n' ∧ r = r' ∧ r < n := by
  constructor
  · rintro ⟨⟩
    exact ⟨rfl, rfl, rfl, h⟩
  · rintro ⟨ha, rfl, rfl, -⟩
    rw [BitVec.eq_of_toNat_eq ha]

theorem decodeStoreMem_truncated_iff {b0 : Byte} {rest : List Byte} {a : BitVec 3} {n r : Nat} :
    decodeStoreMem b0 rest = .truncated a n r ↔ a.toNat = 1 ∧ n = 2 ∧ r = rest.length + 1 ∧ r < n :=
  match rest with
  | [] => truncated_eq_iff (by decide)
  | _ :: _ => iff_of_false nofun (by rintro ⟨-, rfl, rfl, hlt⟩; rw [List.length_cons] at hlt; omega)

theorem decodeLoadConst_truncated_iff {b0 : Byte} {rest : List Byte} {a : BitVec 3} {n r : Nat} :
    decodeLoadConst b0 rest = .truncated a n r ↔ a.toNat = 2 ∧ n = 2 ∧ r = rest.length + 1 ∧ r < n :=
  match rest with
  | [] => truncated_eq_iff (by decide)
  | _ :: _ => iff_of_false nofun (by rintro ⟨-, rfl, rfl, hlt⟩; rw [List.length_cons] at hlt; omega)

theorem decodeLoadMem_truncated_iff {b0 : Byte} {rest : List Byte} {a : BitVec 3} {n r : Nat} :
    decodeLoadMem b0 rest = .truncated a n r ↔ a.toNat = 3 ∧ n = 4 ∧ r = rest.length + 1 ∧ r < n :=
  match rest with
  | [] => truncated_eq_iff (by decide)
  | [_] => truncated_eq_iff (by decide)
  | [_, _] => truncated_eq_iff (by decide)
  | _ :: _ :: _ :: _ => iff_of_false nofun (by rintro ⟨-, rfl, rfl, hlt⟩; simp only [List.length_cons] at hlt; omega)

/-- A first byte outside classes 1, 2 and 3 is decoded whatever follows it: ROL and the illegal classes read one byte
(spec/30_encoding.md R47, R63). -/
theorem decode_instr_of_oneByteClass {b0 : Byte}
    (h : ¬ (b0.toNat / 32 = 1 ∨ b0.toNat / 32 = 2 ∨ b0.toNat / 32 = 3)) (rest : List Byte) :
    ∃ i, decode (b0 :: rest) = .instr i := by
  rcases class_cases b0 with c | c | c | c | c | c | c | c
  · exact ⟨_, decode_illegalA0 c rest⟩
  · exact absurd (.inl c) h
  · exact absurd (.inr (.inl c)) h
  · exact absurd (.inr (.inr c)) h
  · exact ⟨_, decode_rol c rest⟩
  · exact ⟨_, decode_illegalA5 c rest⟩
  · exact ⟨_, decode_illegalA6 c rest⟩
  · exact ⟨_, decode_illegalA7 c rest⟩

/-- The class `a` needs `n` bytes, more than one: the rows of the class table (spec/30_encoding.md R47) that a
truncation can name. -/
def NeedsBytes (a n : Nat) : Prop := (a = 1 ∧ n = 2) ∨ (a = 2 ∧ n = 2) ∨ (a = 3 ∧ n = 4)

/-- The decoder answers a truncation exactly when the first byte's class needs more bytes than there are
(spec/30_encoding.md R59). -/
theorem decode_truncated_iff {b0 : Byte} {rest : List Byte} {a : BitVec 3} {n r : Nat} :
    decode (b0 :: rest) = .truncated a n r ↔
      a.toNat = b0.toNat / 32 ∧ NeedsBytes a.toNat n ∧ r = rest.length + 1 ∧ r < n := by
  unfold NeedsBytes
  by_cases hclass : b0.toNat / 32 = 1 ∨ b0.toNat / 32 = 2 ∨ b0.toNat / 32 = 3
  · rcases hclass with c | c | c
    · rw [decode_storeMem c, decodeStoreMem_truncated_iff]
      omega
    · rw [decode_loadConst c, decodeLoadConst_truncated_iff]
      omega
    · rw [decode_loadMem c, decodeLoadMem_truncated_iff]
      omega
  · obtain ⟨i, hi⟩ := decode_instr_of_oneByteClass hclass rest
    rw [hi]
    exact iff_of_false nofun (by omega)

/-- All bytes of a decoded instruction are there (spec/30_encoding.md R59). -/
theorem size_le_length_of_decode {bs : List Byte} {i : Instr} {n : Nat} (h : decode bs = .instr i)
    (hn : i.size = some n) : n ≤ bs.length := by
  obtain ⟨b0, rest, rfl, hform⟩ := decode_instr h
  clear h
  rcases hform with ⟨-, b1, r, rfl, rfl⟩ | ⟨-, b1, r, rfl, rfl⟩ | ⟨-, b1, b2, b3, r, rfl, rfl⟩ | ⟨-, rfl⟩ | ⟨-, rfl⟩ |
    ⟨-, rfl⟩ | ⟨-, rfl⟩ | ⟨-, rfl⟩ <;> cases hn <;> simp

/-- `decode_truncated_iff` at a cursor of an image. -/
theorem decodeAt_truncated_iff {code : List Byte} {c : Nat} {a : BitVec 3} {n r : Nat} :
    decodeAt code c = .truncated a n r ↔
      ∃ b0, code[c]? = some b0 ∧ a.toNat = b0.toNat / 32 ∧ NeedsBytes a.toNat n ∧ r = code.length - c ∧ r < n := by
  by_cases hc : c < code.length
  · have hlen : (code.drop (c + 1)).length + 1 = code.length - c := by rw [List.length_drop]; omega
    rw [decodeAt, List.drop_eq_getElem_cons hc, decode_truncated_iff, hlen, List.getElem?_eq_getElem hc]
    simp
  · have hle := Nat.le_of_not_lt hc
    rw [decodeAt, List.drop_eq_nil_of_le hle, List.getElem?_eq_none hle]
    simp [decode]

/-- Settles O7: what the decoder answers on the bytes from the cursor on. -/
theorem truncationIffTooFewBytes : Obligations.TruncationIffTooFewBytes := by
  refine ⟨fun code c a n r _ => ?_, fun code c i n hc hi hn => ?_, by decide⟩
  · simp only [decodeAt_truncated_iff, class_shift_eq_div, NeedsBytes]
    refine exists_congr fun b0 => ?_
    constructor <;> (rintro ⟨hb0, ha, hrow, rfl, hlt⟩; exact ⟨hb0, ha, hrow, rfl, hlt⟩)
  · have hsize := size_le_length_of_decode hi hn
    rw [List.length_drop] at hsize
    omega

/-! ## The canonical encoding by its formulas (R62) -/

/-- The four bytes of a word as numbers, as `bytesOfWord16_eq` says of two. -/
theorem bytesOfWord32_eq (w : BitVec 32) :
    bytesOfWord32 w = [BitVec.ofNat 8 (w.toNat / 16777216), BitVec.ofNat 8 (w.toNat / 65536 % 256),
      BitVec.ofNat 8 (w.toNat / 256 % 256), BitVec.ofNat 8 (w.toNat % 256)] := by
  have h (k : Nat) : w.extractLsb' k 8 = BitVec.ofNat 8 (w.toNat / 2 ^ k % 256) := by
    apply BitVec.eq_of_toNat_eq
    rw [toNat_field, BitVec.toNat_ofNat]
    omega
  have htop : w.toNat / 16777216 % 256 = w.toNat / 16777216 := by
    have := w.isLt
    omega
  simp only [bytesOfWord32, h]
  norm_num [htop]

/-- The 13-bit field of an offset: two's complement (spec/30_encoding.md R62). -/
theorem toNat_offsetField {b : Int} {u : Nat} (hlow : -4096 ≤ b) (hhigh : b ≤ 4095)
    (hu : (u : Int) = if 0 ≤ b then b else b + 8192) : (BitVec.ofInt 13 b).toNat = u := by
  rw [BitVec.toNat_ofInt]
  split at hu <;> omega

/-- Settles O8: each word of the encoder as a number is the number its formula gives. -/
theorem encodeFollowsFormula : Obligations.EncodeFollowsFormula := by
  refine ⟨by decide, fun b w hb hw => ?_, fun b u w hlow hhigh hu hw => ?_, fun b w hb hw => ?_⟩
  · have hword : (wordU10 (BitVec.ofNat 10 b)).toNat = w := by
      rw [wordU10_toNat, BitVec.toNat_ofNat, hw, Nat.shiftLeft_eq b, shiftLeft_or_eq_add _ _ 13 (by omega)]
      omega
    rw [encode, bytesOfWord16_eq, hword]
  · have hfield := toNat_offsetField hlow hhigh hu
    have hword : (wordS13 (BitVec.ofInt 13 b)).toNat = w := by
      rw [wordS13_toNat, hw, hfield, shiftLeft_or_eq_add _ _ 13 (hfield ▸ BitVec.isLt _)]
      rfl
    rw [encode, bytesOfWord16_eq, hword]
  · have hword : (wordU24 (BitVec.ofNat 24 b)).toNat = w := by
      rw [wordU24_toNat, BitVec.toNat_ofNat, hw, Nat.shiftLeft_eq b, shiftLeft_or_eq_add _ _ 29 (by omega)]
      omega
    rw [encode, bytesOfWord32_eq, hword]

end Sys2Proof
end

section
/-! SUPPORT. R75, the normal halt at the end of the image. -/

namespace Sys2Proof.Machine

/-- R75, stated at the end of the image itself instead of by what the decoder answers there. -/
theorem step_eq_haltNormally_of_pc_eq_length {s : State} (hs : s.status = .running) (hpc : s.pc = s.code.length) :
    step s = .next s.haltNormally :=
  step_endOfImage hs (State.fetch_endOfImage.2 hpc.ge)

/-- Settles O38: no byte is left at the end of the image, so the step halts normally; a fresh state over the empty image
stands at its end. -/
theorem normalHaltAtEndOfImage : Obligations.NormalHaltAtEndOfImage := by
  refine ⟨fun _ => step_eq_haltNormally_of_pc_eq_length, fun c init => ?_⟩
  have hstep : step (State.fresh c init []) = .next (State.fresh c init []).haltNormally :=
    step_eq_haltNormally_of_pc_eq_length rfl rfl
  exact ⟨_, hstep, rfl, rfl, rfl, rfl, rfl, rfl⟩

end Sys2Proof.Machine
end

section
/-! SUPPORT. The rotate of the ALU family (R90): `rol8` is the library's rotate of a bit vector, so that its formula and
its bits follow from the library's lemmas. -/

namespace Sys2Proof.Machine

theorem rol8_of_mod_eq_zero {n : Nat} (v : Byte) (h : n % 8 = 0) : rol8 v n = v := if_pos h

/-- The case `k = 0` that the source separates gives what the formula would give (spec/43_rol.md R90). -/
theorem rol8_eq_rotateLeft (v : Byte) (n : Nat) : rol8 v n = v.rotateLeft n := by
  rw [BitVec.rotateLeft_def]
  by_cases h : n % 8 = 0
  · have hout : v >>> 8 = 0#8 := BitVec.ushiftRight_eq_zero le_rfl
    rw [rol8_of_mod_eq_zero v h, h, BitVec.shiftLeft_zero, hout, BitVec.or_zero]
  · exact if_neg h

/-- The formula on numbers, for every count: the mask drops only bits that the shift to the left carries out
(spec/43_rol.md R90). -/
theorem toNat_rol8 (v : Byte) (n : Nat) :
    (rol8 v n).toNat = ((v.toNat <<< (n % 8)) ||| (v.toNat >>> (8 - n % 8))) &&& 0xFF := by
  have hright : v.toNat >>> (8 - n % 8) < 2 ^ 8 := (Nat.shiftRight_le _ _).trans_lt v.isLt
  calc (rol8 v n).toNat
    _ = v.toNat <<< (n % 8) % 2 ^ 8 ||| v.toNat >>> (8 - n % 8) := by
      rw [rol8_eq_rotateLeft, BitVec.toNat_rotateLeft]
    _ = (v.toNat <<< (n % 8) ||| v.toNat >>> (8 - n % 8)) % 2 ^ 8 := by
      rw [Nat.or_mod_two_pow, Nat.mod_eq_of_lt hright]
    _ = _ := (Nat.and_two_pow_sub_one_eq_mod _ 8).symm

/-- Bit `i` of the rotate is bit `(i - k) mod 8`: below `k` the bits re-enter from the top, from `k` on they move up
(spec/43_rol.md R90). -/
theorem getLsbD_rol8 (v : Byte) (n : Nat) {i : Nat} (hi : i < 8) :
    (rol8 v n).getLsbD i = v.getLsbD ((i + 8 - n % 8) % 8) := by
  rw [rol8_eq_rotateLeft, BitVec.getLsbD_rotateLeft]
  by_cases h : i < n % 8
  · have hbit : (i + 8 - n % 8) % 8 = 8 - n % 8 + i := by omega
    simp [h, hbit]
  · have hbit : (i + 8 - n % 8) % 8 = i - n % 8 := by omega
    simp [h, hi, hbit]

/-- Settles O15: the formula and the bits of the rotate, and the source's values. -/
theorem rotateFollowsFormula : Obligations.RotateFollowsFormula :=
  ⟨fun v _ => rol8_of_mod_eq_zero v, fun v n _ => toNat_rol8 v n, fun v n _ => getLsbD_rol8 v n, by decide,
    fun v => rol8_of_mod_eq_zero v rfl, fun v => rol8_of_mod_eq_zero v rfl⟩

end Sys2Proof.Machine
end

section
/-! SUPPORT. The round trip of the encoding (R65, R66): a word cut into its bytes and put together again, the fields of
the three words, and the decoder on the encoding of each instruction. -/

namespace Sys2Proof

/-! ## Words and their bytes -/

theorem append_bytesOfWord16 (w : BitVec 16) : (w.extractLsb' 8 8 ++ w.extractLsb' 0 8 : BitVec 16) = w := by
  apply BitVec.eq_of_toNat_eq
  have := w.isLt
  rw [word16_toNat, toNat_field, toNat_field]
  omega

theorem append_bytesOfWord32 (w : BitVec 32) :
    (w.extractLsb' 24 8 ++ w.extractLsb' 16 8 ++ w.extractLsb' 8 8 ++ w.extractLsb' 0 8 : BitVec 32) = w := by
  apply BitVec.eq_of_toNat_eq
  have := w.isLt
  rw [word32_toNat, toNat_field, toNat_field, toNat_field, toNat_field]
  omega

/-! ## Fields of words -/

theorem operandS13_wordS13 (u : BitVec 13) : operandS13 (wordS13 u) = u.toInt := by
  have hfield : (wordS13 u).extractLsb' 0 13 = u := by
    apply BitVec.eq_of_toNat_eq
    have := u.isLt
    rw [toNat_field, wordS13_toNat]
    omega
  rw [operandS13, hfield]

theorem operandU10_wordU10 (b : BitVec 10) : operandU10 (wordU10 b) = b.toNat := by
  have := b.isLt
  rw [operandU10, toNat_field, wordU10_toNat]
  omega

theorem operandU24_wordU24 (b : BitVec 24) : operandU24 (wordU24 b) = b.toNat := by
  have := b.isLt
  rw [operandU24, toNat_field, wordU24_toNat]
  omega

theorem Instr.wellFormed_storeMem {off : Int} : (Instr.storeMem off).wellFormed = true ↔ -4096 ≤ off ∧ off ≤ 4095 := by
  simp [Instr.wellFormed]

theorem Instr.wellFormed_loadConst {b : Nat} : (Instr.loadConst b).wellFormed = true ↔ b < 1024 := by
  simp [Instr.wellFormed]

theorem Instr.wellFormed_loadMem {b : Nat} : (Instr.loadMem b).wellFormed = true ↔ b < 16777216 := by
  simp [Instr.wellFormed]

/-! ## Decoding an encoding (R65) -/

theorem decode_encode_storeMem {off : Int} (h : (Instr.storeMem off).wellFormed = true) (rest : List Byte) :
    decode (encode (.storeMem off) ++ rest) = .instr (.storeMem off) := by
  obtain ⟨hlow, hhigh⟩ := Instr.wellFormed_storeMem.1 h
  have hclass : ((wordS13 (BitVec.ofInt 13 off)).extractLsb' 8 8).toNat / 32 = 1 := by
    have := (BitVec.ofInt 13 off).isLt
    rw [toNat_field, wordS13_toNat]
    omega
  have hoff : (BitVec.ofInt 13 off).toInt = off := by
    rw [BitVec.toInt_ofInt, Int.bmod_eq_of_le (by omega) (by omega)]
  rw [encode, bytesOfWord16, List.cons_append, decode_storeMem hclass, List.cons_append, decodeStoreMem,
    append_bytesOfWord16, operandS13_wordS13, hoff]

theorem decode_encode_loadConst {b : Nat} (h : (Instr.loadConst b).wellFormed = true) (rest : List Byte) :
    decode (encode (.loadConst b) ++ rest) = .instr (.loadConst b) := by
  have hclass : ((wordU10 (BitVec.ofNat 10 b)).extractLsb' 8 8).toNat / 32 = 2 := by
    have := (BitVec.ofNat 10 b).isLt
    rw [toNat_field, wordU10_toNat]
    omega
  rw [encode, bytesOfWord16, List.cons_append, decode_loadConst hclass, List.cons_append, decodeLoadConst,
    append_bytesOfWord16, operandU10_wordU10, BitVec.toNat_ofNat,
    Nat.mod_eq_of_lt (Instr.wellFormed_loadConst.1 h)]

theorem decode_encode_loadMem {b : Nat} (h : (Instr.loadMem b).wellFormed = true) (rest : List Byte) :
    decode (encode (.loadMem b) ++ rest) = .instr (.loadMem b) := by
  have hclass : ((wordU24 (BitVec.ofNat 24 b)).extractLsb' 24 8).toNat / 32 = 3 := by
    have := (BitVec.ofNat 24 b).isLt
    rw [toNat_field, wordU24_toNat]
    omega
  rw [encode, bytesOfWord32, List.cons_append, decode_loadMem hclass, List.cons_append, List.cons_append,
    List.cons_append, decodeLoadMem, append_bytesOfWord32, operandU24_wordU24, BitVec.toNat_ofNat,
    Nat.mod_eq_of_lt (Instr.wellFormed_loadMem.1 h)]

/-- The class of such a byte in the form of the decoder's lemmas. -/
theorem toNat_classByte_div (a : BitVec 3) (low : BitVec 5) : (classByte a low).toNat / 32 = a.toNat := by
  rw [← classBits_toNat, classBits_classByte]

/-- Settles O1: one case per instruction; what follows the encoding is in the tail the decoder does not look at. -/
theorem decodeEncodeRoundTrip : Obligations.DecodeEncodeRoundTrip := by
  intro i rest h
  cases i with
  | storeMem off => exact decode_encode_storeMem h rest
  | loadConst b => exact decode_encode_loadConst h rest
  | loadMem b => exact decode_encode_loadMem h rest
  | rol => exact decode_rol (toNat_classByte_div 4 0) rest
  | illegalA0 low => exact (decode_illegalA0 (toNat_classByte_div 0 low) rest).trans (by rw [lowBits_classByte])
  | illegalA5 low => exact (decode_illegalA5 (toNat_classByte_div 5 low) rest).trans (by rw [lowBits_classByte])
  | illegalA6 low => exact (decode_illegalA6 (toNat_classByte_div 6 low) rest).trans (by rw [lowBits_classByte])
  | illegalA7 low => exact (decode_illegalA7 (toNat_classByte_div 7 low) rest).trans (by rw [lowBits_classByte])

end Sys2Proof

namespace Sys2Proof.Machine

/-! ## Images (R66) -/

theorem assemble_append (is js : List Instr) : assemble (is ++ js) = assemble is ++ assemble js :=
  List.flatMap_append

theorem assemble_cons (i : Instr) (is : List Instr) : assemble (i :: is) = encode i ++ assemble is :=
  List.flatMap_cons

/-- From where the first `k` instructions end stands the image of the others. -/
theorem drop_assemble_take (is : List Instr) (k : Nat) :
    (assemble is).drop (assemble (is.take k)).length = assemble (is.drop k) := by
  have hcut : assemble is = assemble (is.take k) ++ assemble (is.drop k) := by
    rw [← assemble_append, List.take_append_drop]
  rw [hcut, List.drop_left]

/-- Settles O14: what stands from instruction `k`'s offset on begins with its encoding. -/
theorem imageDecodesToItsInstructions : Obligations.ImageDecodesToItsInstructions := by
  intro is hwf
  refine ⟨fun k i hk => ?_, ?_⟩
  · obtain ⟨hlt, rfl⟩ := List.getElem?_eq_some_iff.1 hk
    rw [decodeAt, drop_assemble_take, List.drop_eq_getElem_cons hlt, assemble_cons]
    exact decodeEncodeRoundTrip _ _ (hwf _ (List.getElem_mem hlt))
  · exact decode_endOfImage.2 List.drop_length

end Sys2Proof.Machine

namespace Sys2Proof

/-! ## Encoding what was decoded (R65, the converse half) -/

/-- A number below 256 that is a byte's value gives that byte. -/
theorem ofNat_eq_byte {n : Nat} {b : Byte} (h : n = b.toNat) : BitVec.ofNat 8 n = b := by
  rw [h, BitVec.ofNat_toNat, BitVec.setWidth_eq]

theorem bytesOfWord16_append (b0 b1 : Byte) : bytesOfWord16 (b0 ++ b1) = [b0, b1] := by
  have h1 := b1.isLt
  rw [bytesOfWord16_eq, word16_toNat]
  congr 2 <;> exact ofNat_eq_byte (by omega)

theorem bytesOfWord32_append (b0 b1 b2 b3 : Byte) :
    bytesOfWord32 (b0 ++ b1 ++ b2 ++ b3) = [b0, b1, b2, b3] := by
  have h1 := b1.isLt
  have h2 := b2.isLt
  have h3 := b3.isLt
  rw [bytesOfWord32_eq, word32_toNat]
  congr 4 <;> exact ofNat_eq_byte (by omega)

/-- Masking the `k` low bits of a byte. -/
theorem toNat_and_allOnes_shiftLeft (b : Byte) (k : Nat) :
    (b &&& BitVec.allOnes 8 <<< k).toNat = b.toNat / 2 ^ k * 2 ^ k := by
  have hlt : b.toNat / 2 ^ k * 2 ^ k < 2 ^ 8 := (Nat.div_mul_le_self _ _).trans_lt b.isLt
  rw [← BitVec.shiftLeft_ushiftRight, BitVec.toNat_shiftLeft, BitVec.toNat_ushiftRight, Nat.shiftLeft_eq,
    Nat.shiftRight_eq_div_pow, Nat.mod_eq_of_lt hlt]

/-- The three pad bits of LOAD_CONST's second byte (spec/30_encoding.md R49). -/
theorem toNat_clearThreePads (b : Byte) : (b &&& 0xF8).toNat = b.toNat / 8 * 8 := toNat_and_allOnes_shiftLeft b 3

/-- The five pad bits of ROL's byte and of LOAD_MEM's fourth (spec/30_encoding.md R48, R51). -/
theorem toNat_clearFivePads (b : Byte) : (b &&& 0xE0).toNat = b.toNat / 32 * 32 := toNat_and_allOnes_shiftLeft b 5

theorem encode_storeMem_operandS13 {b0 : Byte} (h : b0.toNat / 32 = 1) (b1 : Byte) :
    encode (.storeMem (operandS13 (b0 ++ b1))) = [b0, b1] := by
  have hword : wordS13 (BitVec.ofInt 13 (operandS13 (b0 ++ b1))) = b0 ++ b1 := by
    apply BitVec.eq_of_toNat_eq
    rw [operandS13, BitVec.ofInt_toInt, wordS13_toNat, toNat_field, word16_toNat]
    omega
  rw [encode, hword, bytesOfWord16_append]

theorem encode_loadConst_operandU10 {b0 : Byte} (h : b0.toNat / 32 = 2) (b1 : Byte) :
    encode (.loadConst (operandU10 (b0 ++ b1))) = [b0, b1 &&& 0xF8] := by
  have hword : wordU10 (BitVec.ofNat 10 (operandU10 (b0 ++ b1))) = b0 ++ (b1 &&& 0xF8) := by
    apply BitVec.eq_of_toNat_eq
    rw [wordU10_toNat, BitVec.toNat_ofNat, operandU10_eq, word16_toNat, toNat_clearThreePads]
    omega
  rw [encode, hword, bytesOfWord16_append]

theorem encode_loadMem_operandU24 {b0 : Byte} (h : b0.toNat / 32 = 3) (b1 b2 b3 : Byte) :
    encode (.loadMem (operandU24 (b0 ++ b1 ++ b2 ++ b3))) = [b0, b1, b2, b3 &&& 0xE0] := by
  have hword : wordU24 (BitVec.ofNat 24 (operandU24 (b0 ++ b1 ++ b2 ++ b3))) = b0 ++ b1 ++ b2 ++ (b3 &&& 0xE0) := by
    apply BitVec.eq_of_toNat_eq
    rw [wordU24_toNat, BitVec.toNat_ofNat, operandU24_eq, word32_toNat, toNat_clearFivePads]
    omega
  rw [encode, hword, bytesOfWord32_append]

theorem encode_rol_eq_clearPads {b0 : Byte} (h : b0.toNat / 32 = 4) : encode .rol = [b0 &&& 0xE0] := by
  have hbyte : classByte 4 0 = b0 &&& 0xE0 := by
    apply BitVec.eq_of_toNat_eq
    rw [toNat_clearFivePads, h]
    rfl
  rw [encode, hbyte]

/-- A byte of class `a` is made of `a` and its own low bits. -/
theorem classByte_lowBits {b0 : Byte} {a : BitVec 3} (h : b0.toNat / 32 = a.toNat) : classByte a (lowBits b0) = b0 := by
  have ha : a = classBits b0 := BitVec.eq_of_toNat_eq (by rw [classBits_toNat, h])
  rw [ha, classByte_classBits]

/-- Settles O2: the first byte's class says which instruction was decoded and which bits are pads. -/
theorem encodeDecodeClearsPadBits : Obligations.EncodeDecodeClearsPadBits := by
  intro bs i h
  obtain ⟨b0, rest, rfl, hform⟩ := decode_instr h
  rcases hform with ⟨c, b1, r, rfl, rfl⟩ | ⟨c, b1, r, rfl, rfl⟩ | ⟨c, b1, b2, b3, r, rfl, rfl⟩ | ⟨c, rfl⟩ | ⟨c, rfl⟩ |
    ⟨c, rfl⟩ | ⟨c, rfl⟩ | ⟨c, rfl⟩ <;> rw [Machine.clearPads, ofBits_classBits c]
  · exact encode_storeMem_operandS13 c b1
  · exact encode_loadConst_operandU10 c b1
  · exact encode_loadMem_operandU24 c b1 b2 b3
  · exact encode_rol_eq_clearPads c
  · exact congrArg (fun b => [b]) (classByte_lowBits c)
  · exact congrArg (fun b => [b]) (classByte_lowBits c)
  · exact congrArg (fun b => [b]) (classByte_lowBits c)
  · exact congrArg (fun b => [b]) (classByte_lowBits c)

/-- Settles O3: the operand's range, and the bytes of the instruction that are there. -/
theorem decodedInstructionIsWellFormed : Obligations.DecodedInstructionIsWellFormed :=
  fun _ _ h => ⟨wellFormed_of_decode h, fun _ => size_le_length_of_decode h⟩

end Sys2Proof
end

section
/-! SUPPORT. What the decoder depends on: pad bits and following bytes (R61), the first byte (R70), a window of four
bytes (R56), the instruction's own bytes (R56, R57). -/

namespace Sys2Proof

/-! ## Pad bits (R61) -/

/-- Settles O9: an operand field ends above the pad bits. -/
theorem padBitsAreIgnored : Obligations.PadBitsAreIgnored := by
  refine ⟨fun b0 rest c => ?_, fun b0 b1 b1' rest rest' c heq => ?_, fun b0 b1 b2 b3 b3' rest rest' c heq => ?_⟩ <;>
    rw [class_shift_eq_div] at c
  · exact decode_rol c rest
  · rw [Nat.shiftRight_eq_div_pow, Nat.shiftRight_eq_div_pow] at heq
    have hfield : operandU10 (b0 ++ b1) = operandU10 (b0 ++ b1') := by
      rw [operandU10_eq, operandU10_eq]
      omega
    rw [decode_loadConst c, decode_loadConst c, decodeLoadConst, decodeLoadConst, hfield]
  · rw [class_shift_eq_div, class_shift_eq_div] at heq
    have hfield : operandU24 (b0 ++ b1 ++ b2 ++ b3) = operandU24 (b0 ++ b1 ++ b2 ++ b3') := by
      rw [operandU24_eq, operandU24_eq]
      omega
    rw [decode_loadMem c, decode_loadMem c, decodeLoadMem, decodeLoadMem, hfield]

/-! ## The opcode map (R70) -/

/-- With three bytes behind it no first byte is truncated. -/
theorem exists_decode_instr (b0 b1 b2 b3 : Byte) (rest : List Byte) :
    ∃ i, decode (b0 :: b1 :: b2 :: b3 :: rest) = .instr i := by
  match h : decode (b0 :: b1 :: b2 :: b3 :: rest) with
  | .instr i => exact ⟨i, rfl⟩
  | .endOfImage => exact nomatch decode_endOfImage.1 h
  | .truncated a n r =>
    obtain ⟨-, hrow, hr, hlt⟩ := decode_truncated_iff.1 h
    simp only [NeedsBytes, List.length_cons] at hrow hr
    omega

/-- The sign of STORE_MEM's offset is the fourth bit of the first byte (spec/30_encoding.md R70). -/
theorem operandS13_nonneg_iff {b0 : Byte} (h : b0.toNat / 32 = 1) (b1 : Byte) :
    0 ≤ operandS13 (b0 ++ b1) ↔ b0.toNat < 0x30 := by
  have h1 := b1.isLt
  rw [operandS13_eq b0 b1 _ rfl]
  split <;> omega

/-- Settles O10: the range of the first byte is its class. -/
theorem firstByteSelectsTheRow : Obligations.FirstByteSelectsTheRow := by
  intro b0 b1 b2 b3 rest
  obtain ⟨i, hi⟩ := exists_decode_instr b0 b1 b2 b3 rest
  have hb0 := b0.isLt
  refine ⟨i, hi, fun h => ?_, fun h h' => ?_, fun h h' => ?_, fun h h' => ?_, fun h h' => ?_, fun h h' => ?_,
    fun h h' => ?_, fun h => ?_⟩
  · cases (decode_illegalA0 (by omega) _).symm.trans hi
    exact ⟨rfl, rfl⟩
  · have c : b0.toNat / 32 = 1 := by omega
    cases (decode_storeMem c _).symm.trans hi
    exact ⟨_, rfl, operandS13_nonneg_iff c b1⟩
  · cases (decode_loadConst (by omega) _).symm.trans hi
    exact ⟨rfl, rfl⟩
  · cases (decode_loadMem (by omega) _).symm.trans hi
    exact ⟨rfl, rfl⟩
  · cases (decode_rol (by omega) _).symm.trans hi
    rfl
  · cases (decode_illegalA5 (by omega) _).symm.trans hi
    exact ⟨rfl, rfl⟩
  · cases (decode_illegalA6 (by omega) _).symm.trans hi
    exact ⟨rfl, rfl⟩
  · cases (decode_illegalA7 (by omega) _).symm.trans hi
    exact ⟨rfl, rfl⟩

/-! ## The decoder block (R56) -/

/-- The decoder looks at four bytes at most. -/
theorem decode_take_four (bs : List Byte) : decode (bs.take 4) = decode bs := by
  match bs with
  | [] => rfl
  | [_] => rfl
  | [_, _] => rfl
  | [_, _, _] => rfl
  | b0 :: _ :: _ :: _ :: _ =>
    simp only [List.take, decode]
    cases OpClass.ofBits (classBits b0) <;> rfl

/-- Outputs `A` and `size` are the first byte's class and its row of the class table, for a truncation too. -/
theorem decode_classField_encodedSize (b0 : Byte) (rest : List Byte) :
    (decode (b0 :: rest)).classField = some (BitVec.ofNat 3 (b0.toNat / 32)) ∧
      (decode (b0 :: rest)).encodedSize = (OpClass.ofBits (BitVec.ofNat 3 (b0.toNat / 32))).size := by
  rcases class_cases b0 with c | c | c | c | c | c | c | c
  · rw [decode_illegalA0 c, c]; exact ⟨rfl, rfl⟩
  · rw [decode_storeMem c, c]
    match rest with
    | [] => exact ⟨rfl, rfl⟩
    | _ :: _ => exact ⟨rfl, rfl⟩
  · rw [decode_loadConst c, c]
    match rest with
    | [] => exact ⟨rfl, rfl⟩
    | _ :: _ => exact ⟨rfl, rfl⟩
  · rw [decode_loadMem c, c]
    match rest with
    | [] => exact ⟨rfl, rfl⟩
    | [_] => exact ⟨rfl, rfl⟩
    | [_, _] => exact ⟨rfl, rfl⟩
    | _ :: _ :: _ :: _ => exact ⟨rfl, rfl⟩
  · rw [decode_rol c, c]; exact ⟨rfl, rfl⟩
  · rw [decode_illegalA5 c, c]; exact ⟨rfl, rfl⟩
  · rw [decode_illegalA6 c, c]; exact ⟨rfl, rfl⟩
  · rw [decode_illegalA7 c, c]; exact ⟨rfl, rfl⟩

theorem Decoded.nextCursor_eq_some_iff {d : Decoded} {c n : Nat} :
    d.nextCursor c = some n ↔ ∃ i m, d = .instr i ∧ i.size = some m ∧ n = c + m := by
  cases d with
  | endOfImage => simp [Decoded.nextCursor]
  | instr i => simp [Decoded.nextCursor, eq_comm]
  | truncated a size r => simp [Decoded.nextCursor]

/-- No instruction is empty (spec/30_encoding.md R47). -/
theorem Instr.size_pos {i : Instr} {n : Nat} (h : i.size = some n) : 1 ≤ n := by
  cases i <;> cases h <;> decide

/-- An instruction decoded at a cursor inside the image ends inside it (spec/30_encoding.md R59). -/
theorem add_size_le_length {code : List Byte} {c n : Nat} {i : Instr} (hc : c ≤ code.length)
    (h : decodeAt code c = .instr i) (hn : i.size = some n) : c + n ≤ code.length := by
  have hle := size_le_length_of_decode h hn
  rw [List.length_drop] at hle
  omega

/-- A cursor at which a byte stands. -/
theorem decodeAt_eq_decode_cons {code : List Byte} {c : Nat} {b0 : Byte} (h : code[c]? = some b0) :
    decodeAt code c = decode (b0 :: code.drop (c + 1)) := by
  obtain ⟨hlt, rfl⟩ := List.getElem?_eq_some_iff.1 h
  rw [decodeAt, List.drop_eq_getElem_cons hlt]

/-- Settles O11: the window, the two outputs of the class table, and the next cursor. -/
theorem decoderBlockOutputs : Obligations.DecoderBlockOutputs := by
  intro code c hc
  refine ⟨(decode_take_four _).symm, fun b0 hb0 => ?_, fun n => Decoded.nextCursor_eq_some_iff, fun n hn => ?_⟩
  · obtain ⟨hA, hsize⟩ := decode_classField_encodedSize b0 (code.drop (c + 1))
    rw [decodeAt_eq_decode_cons hb0, hA, hsize, class_shift_eq_div]
    refine ⟨rfl, ?_⟩
    rcases class_cases b0 with h | h | h | h | h | h | h | h <;> rw [h] <;> rfl
  · obtain ⟨i, m, hi, hm, rfl⟩ := Decoded.nextCursor_eq_some_iff.1 hn
    have hpos := Instr.size_pos hm
    exact ⟨by omega, add_size_le_length hc hi hm⟩

/-! ## The bytes an instruction is decoded from (R56, R57) -/

/-- Bytes that begin as those of a decoded instruction do, over its own size, decode to it; a byte of an illegal class
is decoded alone. -/
theorem decode_of_take_eq {bs bs' : List Byte} {i : Instr} (h : decode bs = .instr i)
    (heq : bs'.take (i.size.getD 1) = bs.take (i.size.getD 1)) : decode bs' = .instr i := by
  obtain ⟨b0, rest, rfl, hform⟩ := decode_instr h
  rw [← List.take_append_drop (i.size.getD 1) bs', heq]
  rcases hform with ⟨c, b1, r, rfl, rfl⟩ | ⟨c, b1, r, rfl, rfl⟩ | ⟨c, b1, b2, b3, r, rfl, rfl⟩ | ⟨c, rfl⟩ | ⟨c, rfl⟩ |
    ⟨c, rfl⟩ | ⟨c, rfl⟩ | ⟨c, rfl⟩
  · exact decode_storeMem c _
  · exact decode_loadConst c _
  · exact decode_loadMem c _
  · exact decode_rol c _
  · exact decode_illegalA0 c _
  · exact decode_illegalA5 c _
  · exact decode_illegalA6 c _
  · exact decode_illegalA7 c _

/-- Settles O12: equal answers of the code port are equal beginnings of the bytes from `pc` on. -/
theorem fetchReadsOnlyItsOwnBytes : Obligations.FetchReadsOnlyItsOwnBytes := by
  intro s t i h hpc hread
  refine decode_of_take_eq h (List.ext_getElem? fun j => ?_)
  rw [List.getElem?_take, List.getElem?_take]
  split
  next hj =>
    rw [List.getElem?_drop, List.getElem?_drop, hpc]
    exact hread j hj
  next => rfl

/-- Settles O13, by evaluating the decoder on the words. -/
theorem sampleWordsDecode : Obligations.SampleWordsDecode := by
  unfold Obligations.SampleWordsDecode
  decide

end Sys2Proof
end

section
/-! SUPPORT. The laws of the rotate count (R92), from the bits of the rotate. -/

namespace Sys2Proof.Machine

theorem rol8_add_eight (v : Byte) (n : Nat) : rol8 v (n + 8) = rol8 v n := by
  rw [rol8, rol8, Nat.add_mod_right]

/-- Rotates add up: the two moves of a bit's index are one move by the sum. -/
theorem rol8_rol8 (v : Byte) (j k : Nat) : rol8 (rol8 v j) k = rol8 v (j + k) := by
  apply BitVec.eq_of_getLsbD_eq
  intro i hi
  have hindex : ((i + 8 - k % 8) % 8 + 8 - j % 8) % 8 = (i + 8 - (j + k) % 8) % 8 := by omega
  rw [getLsbD_rol8 _ _ hi, getLsbD_rol8 _ _ (Nat.mod_lt _ (by decide)), getLsbD_rol8 _ _ hi, hindex]

/-- A rotate only permutes the eight bit positions. -/
theorem rotatedIndices_perm {k : Nat} (h : k < 8) :
    ((List.range 8).map fun i => (i + 8 - k) % 8).Perm (List.range 8) := by
  revert k
  decide

theorem countP_getLsbD_rol8 (v : Byte) (n : Nat) :
    (List.range 8).countP (fun i => (rol8 v n).getLsbD i) = (List.range 8).countP (fun i => v.getLsbD i) := by
  have hk : n % 8 < 8 := Nat.mod_lt _ (by decide)
  calc (List.range 8).countP (fun i => (rol8 v n).getLsbD i)
    _ = (List.range 8).countP (fun i => v.getLsbD ((i + 8 - n % 8) % 8)) :=
      List.countP_congr fun i hi => by rw [getLsbD_rol8 v n (List.mem_range.1 hi)]
    _ = ((List.range 8).map fun i => (i + 8 - n % 8) % 8).countP (fun i => v.getLsbD i) := List.countP_map.symm
    _ = (List.range 8).countP (fun i => v.getLsbD i) := (rotatedIndices_perm hk).countP_eq _

/-- Settles O16: rotates add up, a rotate by 8 changes nothing, and a rotate permutes the bits. -/
theorem rotateCountLaws : Obligations.RotateCountLaws := by
  refine ⟨rol8_add_eight, rol8_rol8, fun v k hk => ?_, fun v n => ?_⟩
  · rw [rol8_rol8, Nat.add_sub_cancel' hk]
    exact rol8_of_mod_eq_zero v rfl
  · rw [← List.countP_eq_length_filter, ← List.countP_eq_length_filter]
    exact countP_getLsbD_rol8 v n

end Sys2Proof.Machine
end

section
/-! SUPPORT. What an instruction does, as two relations read off the spec's chapters on the instructions: when it
completes and with which state, when it raises a fault and which. They are tied to `exec` by `Completes.exec_eq`,
`Raises.exec_eq` and `exec_cases`; later proofs split on them and do not unfold an instruction. -/

namespace Sys2Proof.Machine

/-- The instruction completes from `s`, and the state it leaves (spec/41_load_const.md R81, spec/42_memory_access.md
R83, R85, spec/43_rol.md R89). -/
inductive Completes (s : State) : Instr → State → Prop where
  | storeMem {off : Int} {v : Entry} {rest : List Entry} {x : Nat} (hstack : s.stack = v :: rest)
      (haddr : storeAddress v off = x) (hx : x < s.config.memSize) :
      Completes s (.storeMem off) (((s.withStack rest).memWrite x (lowByte v)).retire 2)
  | loadConst {b : Nat} (hb : b ≤ 32767) (hroom : s.config.stackDepth ≠ some s.sp) :
      Completes s (.loadConst b) ((s.withStack (BitVec.ofInt 16 b :: s.stack)).retire 2)
  | loadMem {b : Nat} (hb : b < s.config.memSize) (hroom : s.config.stackDepth ≠ some s.sp) :
      Completes s (.loadMem b) ((s.withStack (BitVec.ofInt 16 (s.mem.read b).toNat :: s.stack)).retire 4)
  | rol {v a : Entry} {rest : List Entry} {x : Nat} (hstack : s.stack = v :: a :: rest) (haddr : a.toInt = x)
      (hx : x < s.config.memSize) (hroom : s.config.stackDepth ≠ some rest.length) :
      Completes s .rol
        ((s.withStack (BitVec.ofInt 16 (rol8 (lowByte v) (s.mem.read x).toNat).toNat :: rest)).retire 1)

/-- The instruction raises the fault from `s` (spec/60_exceptions.md R96 to R99). `rolOverfull` needs a stack beyond its
depth, which no run reaches. -/
inductive Raises (s : State) : Instr → Cause → Prop where
  | storeMemEmpty {off : Int} (hstack : s.stack = []) : Raises s (.storeMem off) (.stackUnderflow 1 0)
  | storeMemOutside {off : Int} {v : Entry} {rest : List Entry} (hstack : s.stack = v :: rest)
      (hout : ¬ s.inExtent (storeAddress v off)) : Raises s (.storeMem off) (.outOfBounds (storeAddress v off))
  | loadConstFull {b : Nat} (hb : b ≤ 32767) (hfull : s.config.stackDepth = some s.sp) :
      Raises s (.loadConst b) .stackOverflow
  | loadMemOutside {b : Nat} (hout : s.config.memSize ≤ b) : Raises s (.loadMem b) (.outOfBounds b)
  | loadMemFull {b : Nat} (hb : b < s.config.memSize) (hfull : s.config.stackDepth = some s.sp) :
      Raises s (.loadMem b) .stackOverflow
  | rolShort (hshort : s.sp < 2) : Raises s .rol (.stackUnderflow 2 s.sp)
  | rolOutside {v a : Entry} {rest : List Entry} (hstack : s.stack = v :: a :: rest)
      (hout : ¬ s.inExtent a.toInt) : Raises s .rol (.outOfBounds a.toInt)
  | rolOverfull {v a : Entry} {rest : List Entry} (hstack : s.stack = v :: a :: rest) (hin : s.inExtent a.toInt)
      (hfull : s.config.stackDepth = some rest.length) : Raises s .rol .stackOverflow
  | illegalA0 {low : BitVec 5} : Raises s (.illegalA0 low) (.unknownOpcode 0 (classByte 0 low))
  | illegalA5 {low : BitVec 5} : Raises s (.illegalA5 low) (.unknownOpcode 5 (classByte 5 low))
  | illegalA6 {low : BitVec 5} : Raises s (.illegalA6 low) (.unknownOpcode 6 (classByte 6 low))
  | illegalA7 {low : BitVec 5} : Raises s (.illegalA7 low) (.unknownOpcode 7 (classByte 7 low))

/-! ## The two relations and `exec` -/

/-- An address that is a cell of the extent, as a cell number. -/
theorem State.cellAddress_of_eq {s : State} {a : Int} {x : Nat} (h : a = x) (hx : x < s.config.memSize) :
    s.cellAddress a = .ok x := by
  subst h
  exact State.cellAddress_in ⟨by omega, by omega⟩

theorem State.inExtent_iff {s : State} {a : Int} : s.inExtent a ↔ ∃ x : Nat, a = x ∧ x < s.config.memSize := by
  constructor
  · rintro ⟨h, h'⟩
    exact ⟨a.toNat, by omega, by omega⟩
  · rintro ⟨x, rfl, hx⟩
    exact ⟨by omega, by omega⟩

theorem Completes.exec_eq {i : Instr} {s t : State} (h : Completes s i t) : exec i s = .next t := by
  cases h with
  | storeMem hstack haddr hx =>
    simp [exec, execStoreMem, State.popOne_cons hstack, State.cellAddress_of_eq haddr hx, bind, Except.bind, pure,
      Except.pure]
  | @loadConst b hb hroom =>
    rw [exec, execLoadConst, State.push_ok s b ⟨by omega, by omega⟩ hroom, State.conclude_ok]
  | loadMem hb hroom =>
    simp [exec, execLoadMem, State.cellAddress_of_eq rfl hb, State.push_ok s _ (byte_range _) hroom, State.memRead,
      bind, Except.bind]
  | @rol v a rest x hstack haddr hx hroom =>
    simp [exec, execRol, State.popTwo_cons hstack, State.cellAddress_of_eq haddr hx,
      State.push_ok (s.withStack rest) _ (byte_range _) hroom, State.memRead, bind, Except.bind]

theorem Raises.exec_eq {i : Instr} {s : State} {c : Cause} (h : Raises s i c) : exec i s = .next (s.raise c) := by
  cases h with
  | storeMemEmpty hstack => simp [exec, execStoreMem, State.popOne_nil hstack, bind, Except.bind]
  | storeMemOutside hstack hout =>
    simp [exec, execStoreMem, State.popOne_cons hstack, State.cellAddress_out hout, bind, Except.bind]
  | @loadConstFull b hb hfull =>
    rw [exec, execLoadConst, State.push_full s b ⟨by omega, by omega⟩ hfull, State.conclude_raise]
  | @loadMemOutside b hout =>
    have hnot : ¬ s.inExtent b := fun ⟨_, hlt⟩ => by omega
    simp [exec, execLoadMem, State.cellAddress_out hnot, bind, Except.bind]
  | loadMemFull hb hfull =>
    simp [exec, execLoadMem, State.cellAddress_of_eq rfl hb, State.push_full s _ (byte_range _) hfull, bind,
      Except.bind]
  | rolShort hshort => simp [exec, execRol, State.popTwo_short hshort, bind, Except.bind]
  | rolOutside hstack hout =>
    simp [exec, execRol, State.popTwo_cons hstack, State.cellAddress_out hout, bind, Except.bind]
  | @rolOverfull v a rest hstack hin hfull =>
    simp [exec, execRol, State.popTwo_cons hstack, State.cellAddress_in hin,
      State.push_full (s.withStack rest) _ (byte_range _) hfull, bind, Except.bind]
  | illegalA0 => rfl
  | illegalA5 => rfl
  | illegalA6 => rfl
  | illegalA7 => rfl

/-- Every instruction completes or raises a fault in every state, but for a LOAD_CONST of a constant no entry holds,
which is refused. -/
theorem exec_cases (i : Instr) (s : State) :
    (∃ t, Completes s i t) ∨ (∃ c, Raises s i c) ∨
      ∃ b, i = .loadConst b ∧ 32767 < b ∧ exec i s = .refused .pushOutOfRange := by
  cases i with
  | storeMem off =>
    obtain ⟨v, rest, hstack, hin, -⟩ | ⟨v, rest, hstack, hout, -⟩ | ⟨hstack, -⟩ := execStoreMem_cases off s
    · obtain ⟨x, haddr, hx⟩ := State.inExtent_iff.1 hin
      exact .inl ⟨_, .storeMem hstack haddr hx⟩
    · exact .inr (.inl ⟨_, .storeMemOutside hstack hout⟩)
    · exact .inr (.inl ⟨_, .storeMemEmpty hstack⟩)
  | loadConst b =>
    obtain ⟨hb, hroom, -⟩ | ⟨hb, hfull, -⟩ | ⟨hb, e⟩ := execLoadConst_cases b s
    · exact .inl ⟨_, .loadConst hb hroom⟩
    · exact .inr (.inl ⟨_, .loadConstFull hb hfull⟩)
    · exact .inr (.inr ⟨b, rfl, hb, e⟩)
  | loadMem b =>
    obtain ⟨hb, hroom, -⟩ | ⟨hb, hfull, -⟩ | ⟨hout, -⟩ := execLoadMem_cases b s
    · exact .inl ⟨_, .loadMem hb hroom⟩
    · exact .inr (.inl ⟨_, .loadMemFull hb hfull⟩)
    · exact .inr (.inl ⟨_, .loadMemOutside hout⟩)
  | rol =>
    obtain ⟨v, a, rest, hstack, hin, hroom, -⟩ | ⟨v, a, rest, hstack, hin, hfull, -⟩ | ⟨v, a, rest, hstack, hout, -⟩ |
      ⟨hshort, -⟩ := execRol_cases s
    · obtain ⟨x, haddr, hx⟩ := State.inExtent_iff.1 hin
      exact .inl ⟨_, .rol hstack haddr hx hroom⟩
    · exact .inr (.inl ⟨_, .rolOverfull hstack hin hfull⟩)
    · exact .inr (.inl ⟨_, .rolOutside hstack hout⟩)
    · exact .inr (.inl ⟨_, .rolShort hshort⟩)
  | illegalA0 low => exact .inr (.inl ⟨_, .illegalA0⟩)
  | illegalA5 low => exact .inr (.inl ⟨_, .illegalA5⟩)
  | illegalA6 low => exact .inr (.inl ⟨_, .illegalA6⟩)
  | illegalA7 low => exact .inr (.inl ⟨_, .illegalA7⟩)

/-- An instruction that answers a next state completed with it, or raised a fault in the state before it. -/
theorem completes_or_raises {i : Instr} {s t : State} (h : exec i s = .next t) :
    Completes s i t ∨ ∃ c, Raises s i c ∧ t = s.raise c := by
  obtain ⟨u, hu⟩ | ⟨c, hc⟩ | ⟨b, -, -, e⟩ := exec_cases i s
  · cases h.symm.trans hu.exec_eq
    exact .inl hu
  · cases h.symm.trans hc.exec_eq
    exact .inr ⟨c, hc, rfl⟩
  · exact nomatch h.symm.trans e

/-- What a completed instruction leaves outside stack and memory (spec/40_fetch_decode_execute.md R72, R74). -/
theorem Completes.retired {i : Instr} {s t : State} (h : Completes s i t) :
    ∃ n, i.size = some n ∧ t.pc = s.pc + n ∧ t.icount = s.icount + 1 ∧ t.fault = s.fault := by
  cases h <;> exact ⟨_, rfl, rfl, rfl, rfl⟩

theorem Completes.status_eq {i : Instr} {s t : State} (h : Completes s i t) : t.status = s.status := by
  cases h <;> rfl

theorem Completes.config_eq {i : Instr} {s t : State} (h : Completes s i t) : t.config = s.config := by
  cases h <;> rfl

theorem Completes.code_eq {i : Instr} {s t : State} (h : Completes s i t) : t.code = s.code := by
  cases h <;> rfl

theorem Completes.fault_eq {i : Instr} {s t : State} (h : Completes s i t) : t.fault = s.fault := by
  cases h <;> rfl

/-- A next state that is RUNNING was completed: a fault leaves the error halt. -/
theorem completes_of_running {i : Instr} {s t : State} (h : exec i s = .next t) (ht : t.status = .running) :
    Completes s i t := by
  obtain hc | ⟨c, -, rfl⟩ := completes_or_raises h
  · exact hc
  · nomatch ht

end Sys2Proof.Machine
end

section
/-! SUPPORT. The effect of each instruction and its faults, as `Completes` and `Raises` give them. -/

namespace Sys2Proof.Machine

/-- The class of a byte, from the decoder's class field. -/
theorem class_of_classBits {b : Byte} {a : BitVec 3} (h : classBits b = a) : b.toNat / 32 = a.toNat := by
  rw [← classBits_toNat, h]

theorem head_class_of_encode {i : Instr} (hform : Laws.EncodedForm.Statement i) {b0 : Byte} {bs : List Byte}
    (h : encode i = b0 :: bs) : b0.toNat / 32 = i.opClass.bits.toNat := by
  obtain ⟨hhead, -⟩ := hform
  rw [h] at hhead
  exact class_of_classBits (Option.some.inj hhead)

/-- Settles O17: the push and its overflow; the encoding is its two bytes, of class 2. -/
theorem loadConstPushesTheConstant : Obligations.LoadConstPushesTheConstant := by
  refine ⟨fun s b hb hroom => ?_, fun s b hb hfull => ?_, fun b hb => ?_, rfl⟩
  · exact ⟨_, toInt_ofInt_entry b ⟨by omega, by omega⟩, (Completes.loadConst (by omega) hroom).exec_eq⟩
  · exact (Raises.loadConstFull (by omega) hfull).exec_eq
  · have hclass := head_class_of_encode (Laws.EncodedForm.loadConst b) rfl
    have hwf : (Instr.loadConst b).wellFormed = true := Instr.wellFormed_loadConst.2 (by omega)
    exact ⟨_, _, rfl, (class_shift_eq_div _).trans hclass, decodeEncodeRoundTrip _ [] hwf, decode_loadConst hclass []⟩

/-- Settles O18: the push of the cell and the fault outside the extent; the encoding is its four bytes, of class 3. -/
theorem loadMemPushesTheCell : Obligations.LoadMemPushesTheCell := by
  refine ⟨fun s b _ hb hroom => ?_, fun s b _ hout => ?_, fun b hb => ?_, rfl⟩
  · exact ⟨_, toInt_ofInt_entry _ (byte_range _), (Completes.loadMem hb hroom).exec_eq⟩
  · exact (Raises.loadMemOutside hout).exec_eq
  · have hclass := head_class_of_encode (Laws.EncodedForm.loadMem b) rfl
    have hwf : (Instr.loadMem b).wellFormed = true := Instr.wellFormed_loadMem.2 (by omega)
    exact ⟨_, _, _, _, rfl, (class_shift_eq_div _).trans hclass, decodeEncodeRoundTrip _ [] hwf,
      decode_loadMem hclass [], decode_loadMem hclass _, decode_loadMem hclass _⟩

/-- Settles O19: the laws of a memory write at the cell the exact address names. -/
theorem storeMemWritesTheLowByte : Obligations.StoreMemWritesTheLowByte := by
  intro s off v rest x hmem hstack haddr hx
  refine ⟨s.mem.write x (lowByte v), (Completes.storeMem hstack haddr hx).exec_eq, ?_, fun y hy => ?_,
    Memory.write_wf _ hmem _ _⟩
  · rw [Memory.read_write _ hmem, if_pos rfl, lowByte_toInt]
  · exact Memory.read_write_other _ _ hy.symm

/-- An address below 0 or at MEM_SIZE and above is outside the extent (spec/20_memory.md R33). -/
theorem State.not_inExtent {s : State} {a : Int} (h : a < 0 ∨ (s.config.memSize : Int) ≤ a) : ¬ s.inExtent a := by
  rintro ⟨hlow, hhigh⟩
  omega

/-- Settles O20: the entry count is tested before the address. -/
theorem storeMemFaultsInOrder : Obligations.StoreMemFaultsInOrder :=
  ⟨fun _ _ hstack => (Raises.storeMemEmpty hstack).exec_eq,
    fun _ _ _ _ hstack hout => (Raises.storeMemOutside hstack (State.not_inExtent hout)).exec_eq⟩

/-- Where a finite stack is not over-full, there is room for ROL's result once its two entries are gone. -/
theorem room_below_top_two {s : State} {v a : Entry} {rest : List Entry} (hstack : s.stack = v :: a :: rest)
    (hdepth : ∀ e ∈ s.config.stackDepth, s.stack.length ≤ e) : s.config.stackDepth ≠ some rest.length := by
  intro hfull
  have hle := hdepth _ hfull
  rw [hstack, List.length_cons, List.length_cons] at hle
  omega

/-- Settles O21: the entry pushed stands for the rotated byte, whose number the rotate's formula gives. -/
theorem rolRotatesTheTopEntry : Obligations.RolRotatesTheTopEntry := by
  intro s v a rest x d k hstack haddr hx hdepth hd hk
  have hroom := room_below_top_two hstack hdepth
  have hd' : d = (lowByte v).toNat := by
    have := lowByte_toInt v
    omega
  refine ⟨_, ?_, (Completes.rol hstack haddr hx hroom).exec_eq⟩
  rw [toInt_ofInt_entry _ (byte_range _), toNat_rol8, hd', hk]
  exact congrArg Nat.cast (Nat.and_two_pow_sub_one_eq_mod _ 8)

/-- Settles O22: the entry count is tested before the count address. -/
theorem rolFaultsInOrder : Obligations.RolFaultsInOrder :=
  ⟨fun _ hshort => (Raises.rolShort hshort).exec_eq,
    fun _ _ _ _ hstack hout => (Raises.rolOutside hstack (State.not_inExtent hout)).exec_eq⟩

/-- The fault of an illegal class, its byte written as a number. -/
theorem Raises.exec_unknownOpcode {i : Instr} {s : State} {a : BitVec 3} {low : BitVec 5} {n : Nat}
    (h : Raises s i (.unknownOpcode a (classByte a low))) (hn : n = a.toNat * 32 + low.toNat) :
    exec i s = .next (s.raise (.unknownOpcode a (BitVec.ofNat 8 n))) := by
  rw [h.exec_eq, ofNat_eq_byte (hn.trans (classByte_toNat a low).symm)]

/-- Settles O23: one illegal row as the other. -/
theorem illegalClassesRaiseUnknownOpcode : Obligations.IllegalClassesRaiseUnknownOpcode :=
  fun _ _ => ⟨Raises.illegalA0.exec_unknownOpcode rfl, Raises.illegalA5.exec_unknownOpcode rfl,
    Raises.illegalA6.exec_unknownOpcode rfl, Raises.illegalA7.exec_unknownOpcode rfl⟩

/-! ## The fault an error halt shows -/

theorem State.raise_inj {s : State} {c d : Cause} (h : s.raise c = s.raise d) : c = d := by
  have hfault := congrArg State.fault h
  rw [State.raise_fault, State.raise_fault] at hfault
  exact congrArg FaultRecord.cause (Option.some.inj hfault)

/-- Completing and raising are told apart by `icount`, which only retirement moves. -/
theorem raises_of_exec_eq_raise {i : Instr} {s : State} {c : Cause} (h : exec i s = .next (s.raise c)) :
    Raises s i c := by
  obtain hdone | ⟨d, hd, heq⟩ := completes_or_raises h
  · obtain ⟨n, -, -, hicount, -⟩ := hdone.retired
    rw [State.raise_icount] at hicount
    omega
  · exact State.raise_inj heq ▸ hd

/-- Settles O24: of the instructions that raise StackOverflow, ROL needs an over-full stack. -/
theorem stackOverflowExactlyWhenFull : Obligations.StackOverflowExactlyWhenFull := by
  intro i s hwf hdepth
  constructor
  · intro h
    cases raises_of_exec_eq_raise h with
    | loadConstFull _ hfull => exact ⟨hfull, .inl ⟨_, rfl⟩⟩
    | loadMemFull hb hfull => exact ⟨hfull, .inr ⟨_, rfl, hb⟩⟩
    | rolOverfull hstack _ hfull => exact absurd hfull (room_below_top_two hstack hdepth)
  · rintro ⟨hfull, ⟨b, rfl⟩ | ⟨b, rfl, hb⟩⟩
    · have hb := Instr.wellFormed_loadConst.1 hwf
      exact (Raises.loadConstFull (by omega) hfull).exec_eq
    · exact (Raises.loadMemFull hb hfull).exec_eq

/-- Settles O25: an instruction completes, raises a fault, or is the one refused. -/
theorem wellFormedInstructionsNeverStop : Obligations.WellFormedInstructionsNeverStop := by
  refine ⟨fun i s hwf => exec_next_of_wellFormed hwf s, fun i s r h => ?_, fun i s r h => ?_⟩
  · obtain ⟨t, ht⟩ | ⟨c, hc⟩ | ⟨b, hi, hb, e⟩ := exec_cases i s
    · exact nomatch h.symm.trans ht.exec_eq
    · exact nomatch h.symm.trans hc.exec_eq
    · exact ⟨b, hi, hb, Host.Outcome.refused.inj (h.symm.trans e)⟩
  · obtain ⟨t, ht⟩ | ⟨c, hc⟩ | ⟨b, -, -, e⟩ := exec_cases i s
    · exact nomatch h.symm.trans ht.exec_eq
    · exact nomatch h.symm.trans hc.exec_eq
    · exact nomatch h.symm.trans e

end Sys2Proof.Machine
end

section
/-! SUPPORT. Frames: what an instruction and a step leave as they were, and how far the rest of the state takes part. -/

namespace Sys2Proof.Machine

/-- Settles O26: a load that completes only pushes; a fault changes nothing else. -/
theorem loadsLeaveMemoryAlone : Obligations.LoadsLeaveMemoryAlone := by
  intro i s t hi h
  obtain hdone | ⟨c, -, rfl⟩ := completes_or_raises h
  · obtain ⟨b, rfl⟩ | ⟨b, rfl⟩ := hi
    · cases hdone with
      | loadConst => exact ⟨fun _ => rfl, rfl, rfl, .inr ⟨_, rfl⟩, .inl ⟨rfl, rfl⟩⟩
    · cases hdone with
      | loadMem => exact ⟨fun _ => rfl, rfl, rfl, .inr ⟨_, rfl⟩, .inl ⟨rfl, rfl⟩⟩
  · exact ⟨fun _ => rfl, rfl, rfl, .inl rfl, .inr ⟨rfl, rfl, rfl, rfl⟩⟩

/-- Settles O27: a completed STORE_MEM writes the one cell, a fault none. -/
theorem storeMemChangesOneCell : Obligations.StoreMemChangesOneCell := by
  intro off s t h
  obtain hdone | ⟨c, -, rfl⟩ := completes_or_raises h
  · cases hdone with
    | @storeMem _ v rest x hstack haddr hx =>
      refine ⟨fun v' rest' hstack' a ha => ?_, fun hnil => (nomatch hstack.symm.trans hnil), rfl,
        rfl, .inl ⟨rfl, rfl, by rw [hstack]; rfl⟩⟩
      cases hstack.symm.trans hstack'
      exact Memory.read_write_other _ _ (by omega)
  · exact ⟨fun _ _ _ _ _ => rfl, fun _ _ => rfl, rfl, rfl, .inr ⟨rfl, rfl, rfl, rfl, rfl⟩⟩

/-- Settles O28: a completed ROL replaces the top two entries, a fault changes nothing else. -/
theorem rolLeavesMemoryAlone : Obligations.RolLeavesMemoryAlone := by
  intro s t h
  obtain hdone | ⟨c, -, rfl⟩ := completes_or_raises h
  · cases hdone with
    | rol hstack => exact ⟨fun _ => rfl, rfl, rfl, .inl ⟨rfl, rfl, _, by rw [hstack]; rfl⟩⟩
  · exact ⟨fun _ => rfl, rfl, rfl, .inr ⟨rfl, rfl, rfl, rfl⟩⟩

theorem exec_precise {i : Instr} {s t : State} (hs : s.status = .running) (h : exec i s = .next t)
    (ht : t.status ≠ .running) : ∃ c, t = s.raise c := by
  obtain hdone | ⟨c, -, rfl⟩ := completes_or_raises h
  · exact absurd (hdone.status_eq.trans hs) ht
  · exact ⟨c, rfl⟩

/-- Settles O29: what does not complete is `raise` in the state before it, in an instruction and in a step. -/
theorem faultsArePrecise : Obligations.FaultsArePrecise := by
  refine ⟨fun i s t => exec_precise, fun s t h ht => ?_⟩
  obtain ⟨hs, ⟨-, rfl⟩ | ⟨a, n, r, -, rfl⟩ | ⟨i, -, he⟩⟩ := step_next h
  · nomatch ht
  · exact ⟨_, rfl⟩
  · exact exec_precise hs he (by simp [ht])

/-- Settles O30: what is RUNNING afterwards completed. -/
theorem completedInstructionRetires : Obligations.CompletedInstructionRetires :=
  fun _ _ _ _ h ht => (completes_of_running h ht).retired

/-- The byte a STORE_MEM writes, as a number. -/
theorem lowByte_eq_ofNat (v : Entry) : lowByte v = BitVec.ofNat 8 (v.toNat % 256) :=
  (ofNat_eq_byte (lowByte_toNat v).symm).symm

/-- Settles O31: of what a step can do, only a completed STORE_MEM is not the identity on the memory. -/
theorem onlyStoreMemWritesMemory : Obligations.OnlyStoreMemWritesMemory := by
  intro s t h hne
  obtain ⟨-, ⟨-, rfl⟩ | ⟨a, n, r, -, rfl⟩ | ⟨i, hf, he⟩⟩ := step_next h
  · exact absurd rfl hne
  · exact absurd rfl hne
  · obtain hdone | ⟨c, -, rfl⟩ := completes_or_raises he
    · cases hdone with
      | @storeMem off v rest x hstack haddr hx =>
        exact ⟨off, v, rest, x, hf, hstack, haddr, hx, congrArg (s.mem.write x) (lowByte_eq_ofNat v)⟩
      | loadConst => exact absurd rfl hne
      | loadMem => exact absurd rfl hne
      | rol => exact absurd rfl hne
    · exact absurd rfl hne

/-! ## Along a run -/

/-- What holds at the start of a run and is kept by every step holds at its end. -/
theorem run_induction {P : State → Prop} (hstep : ∀ s t, P s → step s = .next t → P t) {k : Nat} {s t : State}
    (hs : P s) (h : run k s = .next t) : P t := by
  induction k generalizing s with
  | zero => cases h; exact hs
  | succ k ih =>
    obtain ⟨u, hu, hrun⟩ := run_succ h
    exact ih (hstep s u hs hu) hrun

theorem exec_config {i : Instr} {s t : State} (h : exec i s = .next t) : t.config = s.config := by
  obtain hdone | ⟨c, -, rfl⟩ := completes_or_raises h
  · exact hdone.config_eq
  · rfl

theorem step_config {s t : State} (h : step s = .next t) : t.config = s.config := by
  obtain ⟨-, ⟨-, rfl⟩ | ⟨a, n, r, -, rfl⟩ | ⟨i, -, he⟩⟩ := step_next h
  · rfl
  · rfl
  · exact exec_config he

/-- Settles O33: every step keeps parameters and image. -/
theorem parametersNeverChange : Obligations.ParametersNeverChange := by
  intro k s t h
  refine run_induction (P := fun u => u.config = s.config ∧ u.code = s.code) ?_ ⟨rfl, rfl⟩ h
  rintro u w ⟨hconfig, hcode⟩ hstep
  exact ⟨(step_config hstep).trans hconfig, (step_code hstep).trans hcode⟩

/-! ## What takes no part in an instruction -/

/-- With the unbounded stack an instruction completes alike over any entries below its own. -/
theorem Completes.append_stack {i : Instr} {s t : State} (hroom : s.config.stackDepth = none) (h : Completes s i t)
    (below : List Entry) :
    Completes (s.withStack (s.stack ++ below)) i (t.withStack (t.stack ++ below)) := by
  have hnone (n : Nat) : s.config.stackDepth ≠ some n := by simp [hroom]
  cases h with
  | storeMem hstack haddr hx =>
    exact .storeMem (s := s.withStack (s.stack ++ below)) (congrArg (· ++ below) hstack) haddr hx
  | loadConst hb _ => exact .loadConst (s := s.withStack (s.stack ++ below)) hb (hnone _)
  | loadMem hb _ => exact .loadMem (s := s.withStack (s.stack ++ below)) hb (hnone _)
  | rol hstack haddr hx _ =>
    exact .rol (s := s.withStack (s.stack ++ below)) (congrArg (· ++ below) hstack) haddr hx (hnone _)

/-- Settles O34: a completed instruction completes alike over more entries. -/
theorem entriesBelowAreUnreachable : Obligations.EntriesBelowAreUnreachable :=
  fun _ _ _ below hroom _ h ht => ((completes_of_running h ht).append_stack hroom below).exec_eq

/-- The state with another program counter and instruction count. -/
def State.withCounters (p n : Nat) (s : State) : State := { s with pc := p, icount := n }

@[simp] theorem State.withCounters_pc (p n : Nat) (s : State) : (s.withCounters p n).pc = p := rfl
@[simp] theorem State.withCounters_icount (p n : Nat) (s : State) : (s.withCounters p n).icount = n := rfl

/-- An instruction that completes does so from other counters, which rise as much. -/
theorem Completes.withCounters {i : Instr} {s t : State} (h : Completes s i t) (p n : Nat) :
    ∃ m, t.pc = s.pc + m ∧ t.icount = s.icount + 1 ∧
      Completes (s.withCounters p n) i (t.withCounters (p + m) (n + 1)) := by
  cases h with
  | storeMem hstack haddr hx => exact ⟨2, rfl, rfl, .storeMem (s := s.withCounters p n) hstack haddr hx⟩
  | loadConst hb hroom => exact ⟨2, rfl, rfl, .loadConst (s := s.withCounters p n) hb hroom⟩
  | loadMem hb hroom => exact ⟨4, rfl, rfl, .loadMem (s := s.withCounters p n) hb hroom⟩
  | rol hstack haddr hx hroom => exact ⟨1, rfl, rfl, .rol (s := s.withCounters p n) hstack haddr hx hroom⟩

/-- Whether an instruction raises a fault, and which, does not depend on the counters. -/
theorem Raises.withCounters {i : Instr} {s : State} {c : Cause} (h : Raises s i c) (p n : Nat) :
    Raises (s.withCounters p n) i c := by
  cases h with
  | storeMemEmpty hstack => exact .storeMemEmpty hstack
  | storeMemOutside hstack hout => exact .storeMemOutside hstack hout
  | loadConstFull hb hfull => exact .loadConstFull hb hfull
  | loadMemOutside hout => exact .loadMemOutside hout
  | loadMemFull hb hfull => exact .loadMemFull hb hfull
  | rolShort hshort => exact .rolShort (s := s.withCounters p n) hshort
  | rolOutside hstack hout => exact .rolOutside hstack hout
  | rolOverfull hstack hin hfull => exact .rolOverfull hstack hin hfull
  | illegalA0 => exact .illegalA0
  | illegalA5 => exact .illegalA5
  | illegalA6 => exact .illegalA6
  | illegalA7 => exact .illegalA7

/-- Settles O35: from other counters the instruction completes or raises as before. -/
theorem pcAndIcountAreNoOperands : Obligations.PcAndIcountAreNoOperands := by
  intro i s t p n h
  obtain hdone | ⟨c, hc, rfl⟩ := completes_or_raises h
  · obtain ⟨m, hpc, hicount, hdone'⟩ := hdone.withCounters p n
    refine ⟨_, hdone'.exec_eq, rfl, rfl, rfl, rfl, rfl, ?_, ?_⟩
    · rw [State.withCounters_pc, hpc]
      omega
    · rw [State.withCounters_icount, hicount]
      omega
  · exact ⟨_, (hc.withCounters p n).exec_eq, rfl, rfl, rfl, rfl, rfl, Nat.add_comm _ _, Nat.add_comm _ _⟩

/-! ## A store and the next instruction -/

/-- The low byte of an entry as the byte of its value. -/
theorem lowByte_eq_ofInt (v : Entry) : lowByte v = BitVec.ofInt 8 v.toInt := by
  apply BitVec.eq_of_toNat_eq
  have h := lowByte_toInt v
  rw [BitVec.toNat_ofInt]
  omega

/-- What the instruction after a completed STORE_MEM finds. -/
theorem Completes.after_storeMem {s t : State} {off : Int} {v : Entry} {rest : List Entry} {x : Nat}
    (h : Completes s (.storeMem off) t) (hmem : s.mem.wf) (hstack : s.stack = v :: rest) (haddr : v.toInt + off = x) :
    t.stack = rest ∧ x < t.config.memSize ∧ t.mem.read x = lowByte v := by
  cases h with
  | storeMem hstack' haddr' hx =>
    cases hstack.symm.trans hstack'
    cases Int.ofNat.inj (haddr.symm.trans haddr')
    exact ⟨rfl, hx, (Memory.read_write _ hmem _ _ _).trans (if_pos rfl)⟩

/-- Settles O36: the cell just written reads as the low byte of `v`, in the very next state. -/
theorem storeIsSeenByNextInstruction : Obligations.StoreIsSeenByNextInstruction := by
  intro s t off v rest x hmem hroom _ hstack haddr h ht
  have hdone := completes_of_running h ht
  obtain ⟨rfl, hx, hread⟩ := hdone.after_storeMem hmem hstack haddr
  have hnone (n : Nat) : t.config.stackDepth ≠ some n := by simp [hdone.config_eq, hroom]
  refine ⟨⟨_, _, (Completes.loadMem hx (hnone _)).exec_eq, rfl, ?_⟩, fun d a below hrest ha =>
    ⟨_, _, (Completes.rol hrest ha hx (hnone _)).exec_eq, rfl, ?_⟩⟩
  · rw [toInt_ofInt_entry _ (byte_range _), hread, lowByte_toInt]
  · rw [toInt_ofInt_entry _ (byte_range _), hread, lowByte_eq_ofInt d, ← lowByte_toInt, Int.toNat_natCast]

end Sys2Proof.Machine
end

section
/-! SUPPORT. The step: the faults of fetching, the priority of faults, and the run state machine. -/

namespace Sys2Proof.Machine

/-- Settles O37, for every decoded instruction. -/
theorem stepRunsTheDecodedInstruction : Obligations.StepRunsTheDecodedInstruction :=
  fun _ _ hs _ hf => step_instr hs hf

/-! ## Truncation (R95) and the illegal classes (R96) -/

/-- The class as a 3-bit value. -/
theorem toNat_ofNat_class (b0 : Byte) : (BitVec.ofNat 3 (b0.toNat >>> 5)).toNat = b0.toNat / 32 := by
  have := b0.isLt
  rw [class_shift_eq_div, BitVec.toNat_ofNat]
  omega

theorem fetch_truncated {s : State} {b0 : Byte} {n : Nat} (hb0 : s.code[s.pc]? = some b0)
    (hrow : NeedsBytes (b0.toNat / 32) n) (hlt : s.code.length - s.pc < n) :
    s.fetch = .truncated (BitVec.ofNat 3 (b0.toNat >>> 5)) n (s.code.length - s.pc) := by
  have hclass := toNat_ofNat_class b0
  exact decodeAt_truncated_iff.2 ⟨b0, hb0, hclass, hclass ▸ hrow, rfl, hlt⟩

/-- No instruction raises a truncation: it is a fault of fetching. -/
theorem Raises.ne_truncated {i : Instr} {s : State} {a : BitVec 3} {n r : Nat} :
    ¬ Raises s i (.truncatedInstruction a n r) := nofun

/-- The fault record a step writes: that of a truncated fetch, or of the fault its instruction raises. -/
theorem step_fault {s t : State} {r : FaultRecord} (hs : s.fault = none) (h : step s = .next t)
    (ht : t.fault = some r) :
    (∃ a n m, s.fetch = .truncated a n m ∧ r.cause = .truncatedInstruction a n m) ∨
      ∃ i, s.fetch = .instr i ∧ Raises s i r.cause := by
  obtain ⟨-, ⟨-, rfl⟩ | ⟨a, n, m, hf, rfl⟩ | ⟨i, hf, he⟩⟩ := step_next h
  · exact nomatch hs.symm.trans ht
  · cases ht
    exact .inl ⟨a, n, m, hf, rfl⟩
  · obtain hdone | ⟨c, hc, rfl⟩ := completes_or_raises he
    · exact nomatch (hdone.fault_eq.trans hs).symm.trans ht
    · cases ht
      exact .inr ⟨i, hf, hc⟩

/-- Settles O39: the decoder's truncations, and that nothing else raises one. -/
theorem truncatedInstructionEndsTheRun : Obligations.TruncatedInstructionEndsTheRun := by
  refine ⟨fun s b0 n hs hb0 hrow hlt => ?_, fun s t a n r j p hs h ht => ?_⟩
  · rw [class_shift_eq_div] at hrow
    exact step_truncated hs (fetch_truncated hb0 hrow hlt)
  · obtain ⟨a', n', r', hf, hcause⟩ | ⟨i, -, hc⟩ := step_fault hs h ht
    · cases hcause
      obtain ⟨b0, hb0, ha, hrow, rfl, hlt⟩ := decodeAt_truncated_iff.1 hf
      exact ⟨b0, hb0, ha.trans (class_shift_eq_div b0).symm, hrow, rfl, hlt⟩
    · exact absurd hc Raises.ne_truncated

/-- The step at a byte of an illegal class `a`, whichever of the four rows it is. -/
theorem step_unknownOpcode {s : State} {i : Instr} {b0 : Byte} {a : BitVec 3} (hs : s.status = .running)
    (hf : s.fetch = .instr i) (hclass : b0.toNat / 32 = a.toNat)
    (hi : Raises s i (.unknownOpcode a (classByte a (lowBits b0)))) :
    step s = .next (s.raise (.unknownOpcode (BitVec.ofNat 3 (b0.toNat >>> 5)) b0)) := by
  have ha : BitVec.ofNat 3 (b0.toNat >>> 5) = a :=
    BitVec.eq_of_toNat_eq ((toNat_ofNat_class b0).trans hclass)
  rw [step_instr hs hf, hi.exec_eq, classByte_lowBits hclass, ha]

/-- Settles O40: each of the four classes is decoded as its row, whatever follows. -/
theorem unknownClassEndsTheRun : Obligations.UnknownClassEndsTheRun := by
  intro s b0 hs hb0 hclass
  have hf : s.fetch = decode (b0 :: s.code.drop (s.pc + 1)) := decodeAt_eq_decode_cons hb0
  rw [class_shift_eq_div] at hclass
  rcases hclass with c | c | c | c
  · exact step_unknownOpcode (a := 0) hs (hf.trans (decode_illegalA0 c _)) c .illegalA0
  · exact step_unknownOpcode (a := 5) hs (hf.trans (decode_illegalA5 c _)) c .illegalA5
  · exact step_unknownOpcode (a := 6) hs (hf.trans (decode_illegalA6 c _)) c .illegalA6
  · exact step_unknownOpcode (a := 7) hs (hf.trans (decode_illegalA7 c _)) c .illegalA7

/-! ## Priority (R104) -/

/-- Settles O41: a truncation is found before any instruction runs, and `Raises` says what else held for each fault. -/
theorem faultPriority : Obligations.FaultPriority := by
  refine ⟨fun s b0 hs hcode hclass _ => ?_, fun i s t x j p hs h ht => ?_, fun b s hout =>
    (Raises.loadMemOutside hout).exec_eq⟩
  · rw [class_shift_eq_div] at hclass
    have hf : s.fetch = .truncated 1 2 1 := (congrArg decode hcode).trans (decode_storeMem hclass [])
    exact ⟨_, step_truncated hs hf, rfl⟩
  · obtain hdone | ⟨c, hc, rfl⟩ := completes_or_raises h
    · exact nomatch (hdone.fault_eq.trans hs).symm.trans ht
    · cases ht
      cases hc with
      | loadMemOutside => exact .inl ⟨_, rfl, rfl⟩
      | storeMemOutside hstack => exact .inr (.inl ⟨_, rfl, by simp [hstack]⟩)
      | rolOutside hstack => exact .inr (.inr ⟨rfl, by simp [hstack]⟩)

/-! ## The run state machine (R71) -/

/-- The three outcomes of a step as states: the normal halt at the end of the image, an error halt before it, a
completed instruction. -/
theorem step_outcomes {s t : State} (h : step s = .next t) :
    s.status = .running ∧
    ((s.code.length ≤ s.pc ∧ t = s.haltNormally) ∨ (s.pc < s.code.length ∧ ∃ c, t = s.raise c) ∨
      (s.pc < s.code.length ∧ ∃ i, s.fetch = .instr i ∧ Completes s i t)) := by
  obtain ⟨hs, ⟨hf, rfl⟩ | ⟨a, n, r, hf, rfl⟩ | ⟨i, hf, he⟩⟩ := step_next h
  · exact ⟨hs, .inl ⟨State.fetch_endOfImage.1 hf, rfl⟩⟩
  all_goals
    have hlt : s.pc < s.code.length := Nat.lt_of_not_le fun hle => nomatch (State.fetch_endOfImage.2 hle).symm.trans hf
  · exact ⟨hs, .inr (.inl ⟨hlt, _, rfl⟩)⟩
  · obtain hdone | ⟨c, -, rfl⟩ := completes_or_raises he
    · exact ⟨hs, .inr (.inr ⟨hlt, i, hf, hdone⟩)⟩
    · exact ⟨hs, .inr (.inl ⟨hlt, c, rfl⟩)⟩

/-- A halt leaves `pc`, so no instruction was passed. -/
theorem not_passed_of_pc_eq {s t : State} (h : t.pc = s.pc) :
    ¬ ∃ i, decodeAt s.code s.pc = .instr i ∧ exec i s = .next t ∧ ∃ n, i.size = some n ∧ t.pc = s.pc + n := by
  rintro ⟨i, -, -, n, hn, hpc⟩
  have := Instr.size_pos hn
  omega

theorem step_halted {s : State} (h : s.status ≠ .running) : step s = .fault (.halted s.status) := by
  cases hs : s.status with
  | running => exact absurd hs h
  | haltedOk => simp only [step, hs]
  | haltedErr => simp only [step, hs]

/-- Settles O43: each of the three outcomes has one of the three situations, and its own condition. -/
theorem runStateMachine : Obligations.RunStateMachine := by
  refine ⟨fun s t hle h => ?_, fun s => step_halted⟩
  obtain ⟨hs, hout⟩ := step_outcomes h
  refine ⟨hs, ?_⟩
  rcases hout with ⟨hge, rfl⟩ | ⟨hlt, c, rfl⟩ | ⟨hlt, i, hf, hdone⟩
  · refine ⟨iff_of_false nofun (not_passed_of_pc_eq rfl), iff_of_true rfl (by omega), iff_of_false nofun ?_⟩
    rintro ⟨c, heq⟩
    exact nomatch congrArg State.status heq
  · exact ⟨iff_of_false nofun (not_passed_of_pc_eq rfl), iff_of_false nofun (by omega), iff_of_true rfl ⟨c, rfl⟩⟩
  · obtain ⟨n, hn, hpc, -, -⟩ := hdone.retired
    have ht : t.status = .running := hdone.status_eq.trans hs
    refine ⟨iff_of_true ht ⟨i, hf, hdone.exec_eq, n, hn, hpc⟩, iff_of_false (by simp [ht]) (by omega),
      iff_of_false (by simp [ht]) ?_⟩
    rintro ⟨c, heq⟩
    exact nomatch ht.symm.trans (congrArg State.status heq)

end Sys2Proof.Machine
end

section
/-! SUPPORT. The invariant: reset, and every step by its three outcomes. -/

namespace Sys2Proof.Machine

/-- Settles O44: the fields of `State.fresh`. -/
theorem resetValues : Obligations.ResetValues :=
  ⟨fun _ _ _ => ⟨fun _ => rfl, rfl, rfl, rfl, rfl, rfl, rfl, rfl, rfl⟩, rfl, rfl, rfl, fun _ => rfl⟩

/-! ## Reset (R27) -/

theorem State.fresh_inv {c : Config} {init : Memory} (code : List Byte) (hc : c.wellFormed = true) (hwf : init.wf)
    (hin : init.within c.memSize) : (State.fresh c init code).Inv where
  configOk := hc
  memCanonical := hwf
  memWithin := hin
  entries := nofun
  depth _ _ := Nat.zero_le _
  stackBound := Nat.zero_le _
  pcBound := Nat.zero_le _
  icountBound := Nat.zero_le _
  faultIff := iff_of_false nofun nofun
  report := nofun
  okAtEnd := nofun
  errInside := nofun

/-- Settles O45: State.reset is the fresh state of the default parameters and the empty image. -/
theorem invariantHoldsAtReset : Obligations.InvariantHoldsAtReset :=
  ⟨State.fresh_inv [] rfl ⟨.nil, nofun⟩ nofun, fun _ _ code hc hwf hin => State.fresh_inv code hc hwf hin⟩

/-! ## What a completed instruction does to each part of the invariant -/

theorem Completes.mem_wf {i : Instr} {s t : State} (h : Completes s i t) (hs : s.mem.wf) : t.mem.wf := by
  cases h with
  | storeMem => exact Memory.write_wf _ hs _ _
  | loadConst => exact hs
  | loadMem => exact hs
  | rol => exact hs

theorem Completes.mem_within {i : Instr} {s t : State} (h : Completes s i t) (hs : s.mem.within s.config.memSize) :
    t.mem.within s.config.memSize := by
  cases h with
  | storeMem _ _ hx => exact Memory.write_within _ _ hs _ hx _
  | loadConst => exact hs
  | loadMem => exact hs
  | rol => exact hs

/-- An entry that holds a constant or a byte (spec/40_fetch_decode_execute.md R80). -/
def SmallEntry (v : Entry) : Prop := 0 ≤ v.toInt ∧ v.toInt ≤ 1023

theorem smallEntry_ofInt {n : Nat} (h : n ≤ 1023) : SmallEntry (BitVec.ofInt 16 n) := by
  rw [SmallEntry, toInt_ofInt_entry _ ⟨by omega, by omega⟩]
  omega

theorem smallEntry_byte (b : Byte) : SmallEntry (BitVec.ofInt 16 b.toNat) := by
  have := b.isLt
  exact smallEntry_ofInt (by omega)

/-- Only constants of 10 bits and bytes are pushed. -/
theorem Completes.entries {i : Instr} {s t : State} (h : Completes s i t) (hwf : i.wellFormed = true)
    (hs : ∀ v ∈ s.stack, SmallEntry v) : ∀ v ∈ t.stack, SmallEntry v := by
  cases h with
  | storeMem hstack =>
    rw [hstack, List.forall_mem_cons] at hs
    exact hs.2
  | loadConst =>
    have hb := Instr.wellFormed_loadConst.1 hwf
    exact List.forall_mem_cons.2 ⟨smallEntry_ofInt (by omega), hs⟩
  | loadMem => exact List.forall_mem_cons.2 ⟨smallEntry_byte _, hs⟩
  | rol hstack =>
    rw [hstack, List.forall_mem_cons, List.forall_mem_cons] at hs
    exact List.forall_mem_cons.2 ⟨smallEntry_byte _, hs.2.2⟩

/-- How the stack's height moves: a push takes at least two bytes of the image (spec/10_state.md R15), and finds room on
a finite stack. -/
theorem Completes.sp_le {i : Instr} {s t : State} (h : Completes s i t) :
    2 * t.sp + s.pc ≤ 2 * s.sp + t.pc ∧ (t.sp ≤ s.sp ∨ t.sp = s.sp + 1 ∧ s.config.stackDepth ≠ some s.sp) := by
  cases h with
  | storeMem hstack =>
    simp only [State.sp, hstack, State.retire_stack, State.memWrite_stack, State.withStack_stack, State.retire_pc,
      State.memWrite_pc, State.withStack_pc, List.length_cons]
    omega
  | loadConst _ hroom => exact ⟨by simp [State.sp]; omega, .inr ⟨rfl, hroom⟩⟩
  | loadMem _ hroom => exact ⟨by simp [State.sp]; omega, .inr ⟨rfl, hroom⟩⟩
  | rol hstack =>
    simp only [State.sp, hstack, State.retire_stack, State.withStack_stack, State.retire_pc, State.withStack_pc,
      List.length_cons]
    omega

theorem Completes.depth {i : Instr} {s t : State} (h : Completes s i t) {d : Nat} (hd : s.config.stackDepth = some d)
    (hs : s.sp ≤ d) : t.sp ≤ d := by
  obtain ⟨-, hle | ⟨heq, hroom⟩⟩ := h.sp_le
  · exact hle.trans hs
  · have hne : s.sp ≠ d := fun heq => hroom (hd.trans (congrArg some heq.symm))
    omega

theorem State.Inv.fault_eq_none {s : State} (h : s.Inv) (hs : s.status ≠ .haltedErr) : s.fault = none :=
  Option.not_isSome_iff_eq_none.1 fun hf => hs (h.faultIff.1 hf)

/-! ## The three outcomes of a step -/

theorem State.Inv.haltNormally {s : State} (h : s.Inv) (hs : s.status = .running) (hpc : s.code.length ≤ s.pc) :
    s.haltNormally.Inv where
  configOk := h.configOk
  memCanonical := h.memCanonical
  memWithin := h.memWithin
  entries := h.entries
  depth := h.depth
  stackBound := h.stackBound
  pcBound := h.pcBound
  icountBound := h.icountBound
  faultIff := iff_of_false (by simp [h.fault_eq_none (by simp [hs])]) nofun
  report := h.report
  okAtEnd _ := h.pcBound.antisymm hpc
  errInside := nofun

theorem State.Inv.raise {s : State} (h : s.Inv) (hpc : s.pc < s.code.length) (c : Cause) : (s.raise c).Inv where
  configOk := h.configOk
  memCanonical := h.memCanonical
  memWithin := h.memWithin
  entries := h.entries
  depth := h.depth
  stackBound := h.stackBound
  pcBound := h.pcBound
  icountBound := h.icountBound
  faultIff := iff_of_true rfl rfl
  report := by rintro r ⟨⟩; exact ⟨rfl, rfl⟩
  okAtEnd := nofun
  errInside _ := hpc

theorem State.Inv.completes {s t : State} {i : Instr} (h : s.Inv) (hs : s.status = .running)
    (hf : s.fetch = .instr i) (hdone : Completes s i t) : t.Inv := by
  obtain ⟨n, hn, hpc, hicount, hfault⟩ := hdone.retired
  have hpos := Instr.size_pos hn
  have hend : s.pc + n ≤ s.code.length := add_size_le_length h.pcBound hf hn
  have hstatus : t.status = .running := hdone.status_eq.trans hs
  have hnone : t.fault = none := hfault.trans (h.fault_eq_none (by simp [hs]))
  have hsp := hdone.sp_le.1
  have hstack := h.stackBound
  have hcount := h.icountBound
  exact {
    configOk := hdone.config_eq ▸ h.configOk
    memCanonical := hdone.mem_wf h.memCanonical
    memWithin := hdone.config_eq ▸ hdone.mem_within h.memWithin
    entries := hdone.entries (wellFormed_of_decode hf) h.entries
    depth := hdone.config_eq ▸ fun d hd => hdone.depth hd (h.depth d hd)
    stackBound := by omega
    pcBound := by rw [hpc, hdone.code_eq]; exact hend
    icountBound := by omega
    faultIff := by simp [hnone, hstatus]
    report := by simp [hnone]
    okAtEnd := by simp [hstatus]
    errInside := by simp [hstatus] }

/-- Settles O46: each of the three outcomes of a step keeps the invariant. -/
theorem stepKeepsInvariant : Obligations.StepKeepsInvariant := by
  intro s t hs h
  obtain ⟨hrun, ⟨hge, rfl⟩ | ⟨hlt, c, rfl⟩ | ⟨-, i, hf, hdone⟩⟩ := step_outcomes h
  · exact hs.haltNormally hrun hge
  · exact hs.raise hlt c
  · exact hs.completes hrun hf hdone

end Sys2Proof.Machine
end

section
/-! SUPPORT. Whole runs: they halt (R79), memory holds the last store (R41), `icount` is the instruction's position
(R22), and where a run from reset ends (R123). -/

namespace Sys2Proof.Machine

/-! ## Every run halts (R79) -/

/-- Each step that does not halt passes a byte of the image. -/
theorem exists_run_halted {n : Nat} {s : State} (hs : s.status = .running) (hpc : s.pc ≤ s.code.length)
    (hn : s.code.length - s.pc = n) :
    ∃ k t, k ≤ n + 1 ∧ run k s = .next t ∧ (t.status = .haltedOk ∨ t.status = .haltedErr) := by
  induction n using Nat.strong_induction_on generalizing s with
  | _ n ih =>
    obtain ⟨t, ht⟩ := step_next_of_running hs
    obtain ⟨-, ⟨-, rfl⟩ | ⟨-, c, rfl⟩ | ⟨-, i, hf, hdone⟩⟩ := step_outcomes ht
    · exact ⟨1, _, by omega, run_of_step ht, .inl rfl⟩
    · exact ⟨1, _, by omega, run_of_step ht, .inr rfl⟩
    · obtain ⟨m, hm, hpc', -⟩ := hdone.retired
      have hpos := Instr.size_pos hm
      have hend := add_size_le_length hpc hf hm
      have hlen := congrArg List.length hdone.code_eq
      obtain ⟨k, u, hk, hrun, hu⟩ :=
        ih (t.code.length - t.pc) (by omega) (hdone.status_eq.trans hs) (by omega) rfl
      exact ⟨k + 1, u, by omega, (run_of_step ht).trans hrun, hu⟩

/-- Settles O47, by induction on the bytes that are left. -/
theorem everyRunHalts : Obligations.EveryRunHalts := fun _ hs hpc => exists_run_halted hs hpc rfl

/-! ## The last store (R41) -/

theorem lastStore_append (a : Nat) (xs ys : List (Nat × Byte)) :
    lastStore a (xs ++ ys) = (lastStore a ys).or (lastStore a xs) := by
  induction xs with
  | nil => exact Option.or_none.symm
  | cons c xs ih =>
    rw [List.cons_append, lastStore, lastStore, ih]
    cases lastStore a ys <;> rfl

/-- Only a STORE_MEM at `pc` is a store to come. -/
theorem State.nextStore_eq_none {s : State} (h : ∀ off, s.fetch ≠ .instr (.storeMem off)) : s.nextStore = none := by
  unfold State.nextStore
  split
  next off v rest _ hf _ => exact absurd hf (h off)
  next => rfl

/-- What a step does to the memory is the store it performs, if it performs one. -/
theorem step_mem {s t : State} (h : step s = .next t) :
    (s.nextStore = none ∧ t.mem = s.mem) ∨ ∃ x v, s.nextStore = some (x, v) ∧ t.mem = s.mem.write x v := by
  by_cases hfetch : ∃ off, s.fetch = .instr (.storeMem off)
  · obtain ⟨off, hf⟩ := hfetch
    obtain ⟨hs, -⟩ := step_next h
    obtain hdone | ⟨c, hc, rfl⟩ := completes_or_raises ((step_instr hs hf).symm.trans h)
    · cases hdone with
      | @storeMem _ v rest x hstack haddr hx =>
        have hin : s.inExtent x := ⟨by omega, by omega⟩
        exact .inr ⟨x, lowByte v, by simp [State.nextStore, hs, hf, hstack, haddr, hin], rfl⟩
    · refine .inl ⟨?_, rfl⟩
      cases hc with
      | storeMemEmpty hstack => simp only [State.nextStore, hs, hf, hstack]
      | storeMemOutside hstack hout => simp only [State.nextStore, hs, hf, hstack, if_neg hout]
  · refine .inl ⟨State.nextStore_eq_none fun off hf => hfetch ⟨off, hf⟩, ?_⟩
    by_contra hne
    obtain ⟨off, _, _, _, hf, -⟩ := onlyStoreMemWritesMemory s t h hne
    exact hfetch ⟨off, hf⟩

/-- One step of R41: the cell holds what the step stored to it, or what it held before. -/
theorem read_after_step {s t : State} (hmem : s.mem.wf) (h : step s = .next t) (a : Nat) :
    t.mem.read a = (lastStore a s.nextStore.toList).getD (s.mem.read a) := by
  obtain ⟨hstore, hmem'⟩ | ⟨x, v, hstore, hmem'⟩ := step_mem h
  · rw [hstore, hmem']
    rfl
  · rw [hstore, hmem', Memory.read_write _ hmem]
    by_cases hx : x = a <;> simp [lastStore, hx]

theorem step_mem_wf {s t : State} (hmem : s.mem.wf) (h : step s = .next t) : t.mem.wf := by
  obtain ⟨-, hmem'⟩ | ⟨x, v, -, hmem'⟩ := step_mem h
  · exact hmem' ▸ hmem
  · exact hmem' ▸ Memory.write_wf _ hmem _ _

/-- Settles O48, by induction on the number of steps: the stores of the later steps come last. -/
theorem memoryHoldsTheLastStore : Obligations.MemoryHoldsTheLastStore := by
  intro k
  induction k with
  | zero =>
    intro s t a _ h
    cases h
    rfl
  | succ k ih =>
    intro s t a hmem h
    obtain ⟨u, hu, hrun⟩ := run_succ h
    have hstores : State.stores (k + 1) s = s.nextStore.toList ++ State.stores k u := by simp only [State.stores, hu]
    rw [ih u t a (step_mem_wf hmem hu) hrun, read_after_step hmem hu, hstores, lastStore_append]
    cases lastStore a (State.stores k u) <;> rfl

/-! ## Positions of instructions (R22) -/

theorem instrOffset_succ {code : List Byte} {k c n : Nat} {i : Instr} (hc : instrOffset code k = some c)
    (hi : decodeAt code c = .instr i) (hn : i.size = some n) : instrOffset code (k + 1) = some (c + n) := by
  simp only [instrOffset, hc, hi, hn, Option.map_some]

/-- Settles O49: a halt moves neither `icount` nor `pc`, a completed instruction moves both by one instruction. -/
theorem icountIsTheInstructionPosition : Obligations.IcountIsTheInstructionPosition := by
  intro s t hpos h
  obtain ⟨-, ⟨-, rfl⟩ | ⟨-, c, rfl⟩ | ⟨-, i, hf, hdone⟩⟩ := step_outcomes h
  · exact hpos
  · exact hpos
  · obtain ⟨n, hn, hpc, hicount, -⟩ := hdone.retired
    rw [hdone.code_eq, hicount, hpc]
    exact instrOffset_succ hpos hf hn

/-! ## The end of a run (R123) -/

/-- What a run from reset keeps. -/
structure OnProgram (code : List Byte) (s : State) : Prop where
  inv : s.Inv
  position : instrOffset s.code s.icount = some s.pc
  code_eq : s.code = code

theorem OnProgram.step {code : List Byte} {s t : State} (h : OnProgram code s) (hstep : step s = .next t) :
    OnProgram code t where
  inv := stepKeepsInvariant s t h.inv hstep
  position := icountIsTheInstructionPosition s t h.position hstep
  code_eq := (step_code hstep).trans h.code_eq

/-- Settles O50: a run from reset keeps the invariant and the position of the instruction at `pc`. -/
theorem endOfRun : Obligations.EndOfRun := by
  intro c init code k t hc hwf hin h
  have hfresh : OnProgram code (State.fresh c init code) := ⟨State.fresh_inv code hc hwf hin, rfl, rfl⟩
  obtain ⟨hinv, hpos, rfl⟩ := run_induction (fun s t => OnProgram.step) hfresh h
  refine ⟨fun hok => ?_, fun herr => ?_⟩
  · have hpc := hinv.okAtEnd hok
    exact ⟨hpc, hpc ▸ hpos, hinv.fault_eq_none (by simp [hok])⟩
  · obtain ⟨r, hr⟩ := Option.isSome_iff_exists.1 (hinv.faultIff.2 herr)
    obtain ⟨hindex, hpc⟩ := hinv.report r hr
    exact ⟨hinv.errInside herr, hpos, r, hr, hindex, hpc⟩

/-! ## Which cells can be written (R88), ROL in a large memory (R93) -/

/-- Settles O51: an entry is at most 1023 and an offset at most 4095. -/
theorem highCellsAreNeverWritten : Obligations.HighCellsAreNeverWritten := by
  intro s t a hs h ha
  by_cases hmem : t.mem = s.mem
  · rw [hmem]
  · obtain ⟨off, v, rest, x, hf, hstack, haddr, -, hmem'⟩ := onlyStoreMemWritesMemory s t h hmem
    obtain ⟨-, hoff⟩ := Instr.wellFormed_storeMem.1 (wellFormed_of_decode hf)
    obtain ⟨-, hv⟩ := hs.entries v (by simp [hstack])
    rw [hmem']
    exact Memory.read_write_other _ _ (by omega)

/-- Settles O52: the constant pushed is the datum, and its own part of the address is taken off by the offset. -/
theorem lowCellsCanHoldEveryByte : Obligations.LowCellsCanHoldEveryByte := by
  intro s x d hs hmem hroom hx hin hd
  have hv : (BitVec.ofInt 16 d).toInt = d := toInt_ofInt_entry d ⟨by omega, by omega⟩
  have hload : Completes s (.loadConst d) _ := .loadConst (by omega) (by simp [hroom])
  have haddr : storeAddress (BitVec.ofInt 16 d) (x - d) = x := by
    rw [storeAddress, hv]
    omega
  have hstore : Completes ((s.withStack (BitVec.ofInt 16 d :: s.stack)).retire 2) (.storeMem (x - d)) _ :=
    .storeMem rfl haddr hin
  refine ⟨_, _, hload.exec_eq, Instr.wellFormed_storeMem.2 (by omega), hstore.exec_eq, hs, ?_, rfl⟩
  have hread := (hstore.after_storeMem hmem rfl haddr).2.2
  have hlow := lowByte_toInt (BitVec.ofInt 16 d)
  rw [hread]
  omega

/-- Settles O53: the count address is an entry of the invariant, so at most 1023. -/
theorem rolCompletesInLargeMemory : Obligations.RolCompletesInLargeMemory := by
  intro s hs hrun hsize hlen
  match hstack : s.stack with
  | [] => simp [hstack] at hlen
  | [_] => simp [hstack] at hlen
  | v :: a :: rest =>
    obtain ⟨hlow, hhigh⟩ := hs.entries a (by simp [hstack])
    have hdone := Completes.rol (x := a.toInt.toNat) hstack (by omega) (by omega) (room_below_top_two hstack hs.depth)
    exact ⟨_, hdone.exec_eq, hrun, by simp [State.sp, hstack]⟩

/-! ## The snapshot (R126) -/

/-- Settles O54: the cells listed are those of the canonical memory, and filtering keeps their order. -/
theorem snapshotReportsTheState : Obligations.SnapshotReportsTheState := by
  intro s start last hmem
  refine ⟨fun a v => ?_, hmem.1.filter _, fun i => rfl, List.length_reverse, rfl, rfl, rfl, rfl, rfl⟩
  simp only [State.snapshot, List.mem_filter, Memory.mem_iff_read s.mem hmem, Bool.and_eq_true, decide_eq_true_eq]
  exact ⟨fun ⟨⟨hv, hread⟩, hstart, hlast⟩ => ⟨hstart, hlast, hv, hread⟩,
    fun ⟨hstart, hlast, hv, hread⟩ => ⟨⟨hv, hread⟩, hstart, hlast⟩⟩

end Sys2Proof.Machine
end
